-- ==== Sys2Proof/Word.lean ====
section
/-!
DEFINITION. The word types of the codec (00_scope.md R4): a BYTE is 8 bits, every value is XLEN = 64 bits. An address of
host storage is a natural number: the address width AW is left open (20_memory.md R23, log 4), and a reference is either
ABSENT or an address (20_memory.md R33, 92_eei_decisions.md D6).
-/

namespace Sys2Proof

/-- BYTE, 8 bits (R4). -/
abbrev Byte := BitVec 8

/-- A 64-bit value; the selector says whether it is read as `U64` or `S64` (R4, R11). -/
abbrev Word := BitVec 64

/-- A reference: `none` is the spec's ABSENT (R33), `some a` designates storage at address `a`. -/
abbrev Ref := Option Nat

end Sys2Proof
end

