-- ==== Sys2Proof/Config.lean ====
section
/-!
DEFINITION. The free values: what the spec leaves `any value` (93_implementation_defined.md U1 and U6). Each is a constant
with no body, so no proof can learn what it is. `draw` is the number of the draw (State's own counter), `old` what the
storage held before, `new` what the block had computed for it: the value may depend on all three (log 9, log 10).
-/

namespace Sys2Proof.Config

/-- What a 64-bit destination holds when the spec leaves it unspecified. -/
opaque freeValue : (draw : Nat) → (old new : Word) → Word

/-- What a count destination holds when the spec leaves it unspecified. -/
opaque freeCount : (draw : Nat) → (old new : Nat) → Nat

/-- What the byte at an address holds after a reset abandoned the transaction that could have written it. -/
opaque freeByte : (draw : Nat) → (addr : Nat) → (old new : Byte) → Byte

end Sys2Proof.Config
end

