-- ==== Sys2Proof/Machine/Params.lean ====
section
/-!
DEFINITION. The block's parameters (00_scope.md R4, R5). They stand in one mendable file, MAXLEN above all: it is the one
constant on which the source document and the spec differ (90_conflicts.md C1 to C4, log 3).
-/

namespace Sys2Proof.Machine

/-- XLEN (R4). -/
def xlen : Nat := 64

/-- GROUP: data bits in one encoded byte (R4). -/
def groupBits : Nat := 7

/-- DATA_MASK (R4). -/
def dataMask : Byte := 0x7F#8

/-- CONT, the continuation flag of a byte (R4). -/
def contFlag : Byte := 0x80#8

/-- MAXLEN (R5, D1): the longest stream, the decoder's cap, the destination capacity. -/
def maxLen : Nat := 10

/-- LASTSHIFT (R5): the bit offset of the last byte position the decoder examines. -/
def lastShift : Nat := groupBits * (maxLen - 1)

/-- How many turns the encoder's loop is given. The spec's loop consults no cap (R62); each turn removes 7 of the 64 bits,
so XLEN turns are more than it can take (log 14). -/
def encodeFuel : Nat := xlen

end Sys2Proof.Machine
end

