-- ==== Sys2Proof/Syntax.lean ====
section
/-!
DEFINITION. The operations of the block, one constructor per row of spec/opcode_table.json, each with the request fields the
operation reads (10_state.md R17, 30_encoding.md R52 and R54). Fields an operation ignores are not its operands.
-/

namespace Sys2Proof

/-- The four operations (R2, R52). There are no others (60_exceptions.md R107). -/
inductive Instr where
  /-- `ENCU dst, len_dst, value` (R58); the value is read as `U64`. -/
  | encu (value : Word) (dst lenDst : Ref)
  /-- `DECU src, val_dst, cons_dst` (R67). -/
  | decu (src valDst consDst : Ref)
  /-- `ENCS dst, len_dst, value` (R89); the value is the 64-bit pattern of an `S64`. -/
  | encs (value : Word) (dst lenDst : Ref)
  /-- `DECS src, val_dst, cons_dst` (R92). -/
  | decs (src valDst consDst : Ref)
  deriving DecidableEq, Repr

end Sys2Proof
end

