-- ==== Sys2Proof/Decode.lean ====
section
/-!
DEFINITION. The request record, its decoder and, after it, its encoder (10_state.md R17, 20_memory.md R33, 30_encoding.md
R52). The request is a record of separate ports, not bits of one instruction word (R52, D3). The decoder is total and never
rejects: all four selector values are assigned, "there is no reserved, illegal or hint selector value" (R52).
-/

namespace Sys2Proof

/-- A reference port: a presence bit beside an address; with the bit clear the address is ignored (R33, D6). -/
structure RefPort where
  present : Bool
  addr : Nat
  deriving DecidableEq, Repr

/-- The reference a port carries. -/
def RefPort.ref (p : RefPort) : Ref := if p.present then some p.addr else none

/-- A port that carries a reference; the address beside a clear presence bit is 0. -/
def portOf : Ref → RefPort
  | none => { present := false, addr := 0 }
  | some a => { present := true, addr := a }

/-- The request record (R17). -/
structure Request where
  op : BitVec 2
  valueIn : Word
  dst : RefPort
  lenDst : RefPort
  src : RefPort
  valDst : RefPort
  consDst : RefPort
  deriving DecidableEq, Repr

/-- The selector's split of R52: `op[1]` SGN, `op[0]` DIR; each operation takes the fields it reads and no other (R17). -/
def decode (r : Request) : Instr :=
  match r.op.getLsbD 1, r.op.getLsbD 0 with
  | false, false => .encu r.valueIn r.dst.ref r.lenDst.ref
  | false, true => .decu r.src.ref r.valDst.ref r.consDst.ref
  | true, false => .encs r.valueIn r.dst.ref r.lenDst.ref
  | true, true => .decs r.src.ref r.valDst.ref r.consDst.ref

/-- The request whose selector bits are the low two of `w` and whose other ports are all zero bits: value 0, every presence
bit 0. Bits of `w` at `nbits` and above are no part of it, and no port takes bits 2 and above (log 18). -/
def tableRequest (nbits w : Nat) : Request where
  op := BitVec.ofNat 2 (w % 2 ^ nbits)
  valueIn := 0#64
  dst := { present := false, addr := 0 }
  lenDst := { present := false, addr := 0 }
  src := { present := false, addr := 0 }
  valDst := { present := false, addr := 0 }
  consDst := { present := false, addr := 0 }

/-- The operation this decoder reads from a word of spec/opcode_table.json. -/
def decodeTableWord (nbits w : Nat) : Option Instr := some (decode (tableRequest nbits w))

/-- The selector code of an operation (R52). -/
def opCode : Instr → BitVec 2
  | .encu _ _ _ => 0b00#2
  | .decu _ _ _ => 0b01#2
  | .encs _ _ _ => 0b10#2
  | .decs _ _ _ => 0b11#2

/-- The request that asks for an operation; the fields it does not read are zero and ABSENT (R17, R52). -/
def encode (i : Instr) : Request :=
  match i with
  | .encu value dst lenDst =>
    { op := opCode i, valueIn := value, dst := portOf dst, lenDst := portOf lenDst,
      src := portOf none, valDst := portOf none, consDst := portOf none }
  | .decu src valDst consDst =>
    { op := opCode i, valueIn := 0#64, dst := portOf none, lenDst := portOf none,
      src := portOf src, valDst := portOf valDst, consDst := portOf consDst }
  | .encs value dst lenDst =>
    { op := opCode i, valueIn := value, dst := portOf dst, lenDst := portOf lenDst,
      src := portOf none, valDst := portOf none, consDst := portOf none }
  | .decs src valDst consDst =>
    { op := opCode i, valueIn := 0#64, dst := portOf none, lenDst := portOf none,
      src := portOf src, valDst := portOf valDst, consDst := portOf consDst }

end Sys2Proof
end

