-- ==== Sys2Proof/Machine/State.lean ====
section
/-!
DEFINITION. The machine's state: the block's working registers (10_state.md R12, R13), its response (R16, R17), the host's
actions not yet taken (R17, 70_reset_and_hazards.md R113, R126) and the host's storage (R19, 20_memory.md R22). The block has
no program counter, flag, mode, control register or other register file (R14 to R17, R20).
-/

namespace Sys2Proof.Machine

/-- The three outcomes of a transaction (60_exceptions.md R97). The code `11` cannot be written down (U7). -/
inductive Status where
  | ok
  | invalidArgument
  | incompleteStream
  deriving DecidableEq, Repr

/-- What stands behind a buffer: plain memory, or a device whose reads have side effects (R32). -/
inductive StorageKind where
  | plain
  | device
  deriving DecidableEq, Repr

/-- A byte buffer of the host: `size` bytes from address `base` on (R19, R23). -/
structure Extent where
  base : Nat
  size : Nat
  kind : StorageKind
  deriving DecidableEq, Repr

/-- A count object of the host. It occupies `size` addresses; how the number is laid out there is the host's (R18, R25). -/
structure CountObj where
  addr : Nat
  size : Nat
  val : Nat
  deriving DecidableEq, Repr

/-- A 64-bit value object of the host (R11, R25). -/
structure ValueObj where
  addr : Nat
  size : Nat
  val : Word
  deriving DecidableEq, Repr

/-- The bytes of the host's buffers: (address, byte) pairs, addresses strictly rising, no byte 0 listed. -/
abbrev Memory := List Host.Cell

/-- What the host does to the block or, between transactions, to its own storage (R6, R32, R36, R113, R126). -/
inductive Input where
  /-- One transaction. -/
  | request (r : Request)
  /-- A reset while the block is idle (R113). -/
  | reset
  /-- A transaction that a reset abandons in flight (R113, U6). -/
  | abandon (r : Request)
  /-- The host stores a byte into one of its buffers (R32, R36). -/
  | hostByte (a : Nat) (b : Byte)
  /-- The host stores into one of its count objects. -/
  | hostCount (a : Nat) (k : Nat)
  /-- The host stores into one of its 64-bit objects. -/
  | hostValue (a : Nat) (x : Word)
  deriving DecidableEq, Repr

/-- All state. Between transactions only the host's storage matters (R10): the working registers are dead then (R12, R13). -/
structure State where
  /-- The encoder's remaining value (R12). -/
  v : Word
  /-- The number of bytes emitted so far (R12). -/
  n : BitVec 4
  /-- The decoder's accumulator (R13). -/
  acc : Word
  /-- The bit offset of the next group (R13). -/
  shift : BitVec 7
  /-- The index of the next byte to read (R13). -/
  i : BitVec 4
  /-- The response: the status of the last transaction that returned one, `none` when none is pending (R16, R17, R21). -/
  status : Option Status
  /-- The host's actions not yet taken, oldest first. -/
  inputs : List Input
  /-- The host's byte buffers. -/
  bufs : List Extent
  /-- The bytes in them. -/
  mem : Memory
  /-- The host's count objects, addresses rising. -/
  counts : List CountObj
  /-- The host's 64-bit objects, addresses rising. -/
  values : List ValueObj
  /-- THE MODEL'S OWN: how many free values have been drawn (log 9). -/
  draws : Nat
  deriving DecidableEq, Repr

/-- The spec raises no fault ("never raised as unrecoverable faults", R97). -/
inductive Fault where
  /-- Raised by the encoder's loop when its turns are used up and the remaining value is still above 0x7F. R62 says it ends
  sooner, so this is never raised (`Obligations.StepNeverFaults`); safe. -/
  | encoderUnfinished
  deriving DecidableEq, Repr

/-- Requests and host actions to which the spec gives no meaning ("a model refuses such a request"). -/
inductive Refusal where
  /-- Raised by an arm of `exec` whose instruction has no meaning yet (none is left); safe. -/
  | notModelled (mnemonic : String)
  /-- Raised by an encode that would write past the end of the buffer behind `dst` (R34, R117, U3); safe. -/
  | destinationTooSmall
  /-- Raised by a decode that would read past the end of the buffer behind `src` (R34, R118, U3); safe. -/
  | sourceTooShort
  /-- Raised by an operation whose buffer reference designates device memory (R32); safe. -/
  | deviceStorage
  /-- Raised by an operation whose present count reference designates no count object (R33, R34); safe. -/
  | noCountObject
  /-- Raised by a decode whose value reference designates no 64-bit object (R33, R34); safe. -/
  | noValueObject
  /-- Raised by an operation two of whose present references overlap (R35, U4); safe. -/
  | overlappingReferences
  /-- Raised by a host store to storage the host does not have (log 20); safe. -/
  | hostStoreOutside
  deriving DecidableEq, Repr

/-- The machine right after reset (R21, R113): idle, nothing in flight, no status pending. The working registers are
unspecified in the spec; 0 is the model's choice (log 2). No host storage is placed (log 5) and no free value drawn (log 9). -/
def State.reset : State where
  v := 0#64
  n := 0#4
  acc := 0#64
  shift := 0#7
  i := 0#4
  status := none
  inputs := []
  bufs := []
  mem := []
  counts := []
  values := []
  draws := 0

end Sys2Proof.Machine
end

