-- ==== Sys2Proof/Machine/Ops.lean ====
section
/-!
DEFINITION. The named operations over the state: sequencing, bytes of memory, scalar objects, the working registers and the
return of a status, which is all the "trap entry" this block has (60_exceptions.md R101).
-/

namespace Sys2Proof.Machine

/-- What one step answers. -/
abbrev Result := Host.Outcome State Fault Refusal

/-- Go on with `f` from the next state; a fault or a refusal ends the transaction. -/
def andThen (r : Result) (f : State → Result) : Result :=
  match r with
  | .next s => f s
  | .fault e => .fault e
  | .refused e => .refused e

/-! ### Bytes of memory -/

/-- What an unlisted address reads as (log 5). -/
def Memory.unlisted : Byte := 0#8

/-- The byte at an address. -/
def Memory.get : Memory → Nat → Byte
  | [], _ => Memory.unlisted
  | (k, b) :: t, a => if k = a then b else Memory.get t a

/-- Put a cell before the first one with a greater address. -/
def Memory.insert : Memory → Nat → Byte → Memory
  | [], a, b => [(a, b)]
  | (k, c) :: t, a, b => if a < k then (a, b) :: (k, c) :: t else (k, c) :: Memory.insert t a b

/-- Drop every cell at an address. -/
def Memory.erase (m : Memory) (a : Nat) : Memory := m.filter fun c => decide (c.1 ≠ a)

/-- Write one byte, keeping the canonical form. -/
def Memory.set (m : Memory) (a : Nat) (b : Byte) : Memory :=
  if b = Memory.unlisted then Memory.erase m a else Memory.insert (Memory.erase m a) a b

/-- The canonical form: addresses strictly rising, nothing listed that equals what an unlisted address reads as. -/
def Memory.wf : Memory → Bool
  | [] => true
  | (k, b) :: t => decide (b ≠ Memory.unlisted) && t.all (fun c => decide (k < c.1)) && Memory.wf t

/-! ### The host's buffers -/

/-- Address `a` lies in the buffer. -/
def Extent.holds (e : Extent) (a : Nat) : Bool := decide (e.base ≤ a) && decide (a < e.base + e.size)

/-- The buffer a reference designates: the first one that holds its address. -/
def State.bufferAt (s : State) (a : Nat) : Option Extent := s.bufs.find? fun e => e.holds a

/-- How many bytes of that buffer stand behind the reference; 0 when it designates none (R34). -/
def State.room (s : State) (a : Nat) : Nat :=
  match s.bufferAt a with
  | some e => e.base + e.size - a
  | none => 0

/-- The reference designates device memory (R32). -/
def State.isDevice (s : State) (a : Nat) : Bool :=
  match s.bufferAt a with
  | some e => decide (e.kind = .device)
  | none => false

/-- MemRead(src + k, 1) (R24); `none` past the end of the buffer, which the spec gives no meaning (R34). -/
def State.readByte (s : State) (src : Nat) (k : Nat) : Option Byte :=
  if k < s.room src then some (s.mem.get (src + k)) else none

/-- The state with the byte at an address replaced. -/
def State.setByte (s : State) (a : Nat) (b : Byte) : State := { s with mem := s.mem.set a b }

/-- MemWrite(dst + k, 1, b) (R24), refused past the end of the buffer (R34, U3). -/
def putByte (dst : Nat) (k : Nat) (b : Byte) (s : State) : Result :=
  if k < s.room dst then .next (s.setByte (dst + k) b) else .refused .destinationTooSmall

/-! ### Scalar objects -/

/-- The count object at an address. -/
def State.countAt (s : State) (a : Nat) : Option CountObj := s.counts.find? fun c => decide (c.addr = a)

/-- The 64-bit object at an address. -/
def State.valueAt (s : State) (a : Nat) : Option ValueObj := s.values.find? fun c => decide (c.addr = a)

/-- The content of the count object at an address. -/
def State.countVal (s : State) (a : Nat) : Option Nat := (s.countAt a).map CountObj.val

/-- The content of the 64-bit object at an address. -/
def State.valueVal (s : State) (a : Nat) : Option Word := (s.valueAt a).map ValueObj.val

/-- Replace the content of the count object behind a reference, as a function of what it held; ABSENT does nothing. -/
def State.updateCount (s : State) (r : Ref) (f : Nat → Nat) : State :=
  match r with
  | none => s
  | some a => { s with counts := s.counts.map fun c => if c.addr = a then { c with val := f c.val } else c }

/-- Replace the content of the 64-bit object behind a reference; ABSENT does nothing. -/
def State.updateValue (s : State) (r : Ref) (f : Word → Word) : State :=
  match r with
  | none => s
  | some a => { s with values := s.values.map fun c => if c.addr = a then { c with val := f c.val } else c }

/-- `*ref <- k` for a count: one whole number in one write, zero-extended into the host's object (R18, R25, D7). -/
def State.storeCount (s : State) (r : Ref) (k : Nat) : State := s.updateCount r fun _ => k

/-- `*ref <- x` for a 64-bit value (R25). -/
def State.storeValue (s : State) (r : Ref) (x : Word) : State := s.updateValue r fun _ => x

/-! ### The response -/

/-- End the transaction with a status: nothing is saved and control goes nowhere (R16, R101). A status other than `ok` is
the block's only kind of exception; there is no return from it (R102). -/
def State.report (s : State) (st : Status) : State := { s with status := some st }

/-! ### Bits of a stream byte and of the accumulator -/

/-- `trunc_8(v & 0x7F) | 0x80`, the byte emitted while more follow (R58). -/
def contByte (v : Word) : Byte := ((v &&& 0x7F#64).setWidth 8) ||| contFlag

/-- `trunc_8(v)`, the final byte (R58). -/
def lastByte (v : Word) : Byte := v.setWidth 8

/-- `zext_64(b & 0x7F)` (R67). -/
def dataBits (b : Byte) : Word := (b &&& dataMask).setWidth 64

/-- Bit 7 of a byte is set: more bytes follow (R40). -/
def isCont (b : Byte) : Bool := decide (b &&& contFlag ≠ 0#8)

/-- `shl64(a, k)`: bits past bit 63 are discarded (00_scope.md section 6, R70). -/
def shl64 (a : Word) (k : Nat) : Word := a <<< k

/-! ### The working registers -/

/-- `v <- x; n <- 0` (R58). -/
def State.startEncode (s : State) (x : Word) : State := { s with v := x, n := 0#4 }

/-- `v <- v >>u 7; n <- n + 1` (R58). -/
def State.shiftOut (s : State) : State := { s with v := s.v >>> groupBits, n := s.n + 1#4 }

/-- `n <- n + 1`, after the final byte (R58). -/
def State.countFinal (s : State) : State := { s with n := s.n + 1#4 }

/-- `acc <- 0; shift <- 0; i <- 0` (R67, R21). -/
def State.startDecode (s : State) : State := { s with acc := 0#64, shift := 0#7, i := 0#4 }

/-- One byte into the accumulator: OR its group in at `shift`, then `shift` and the index of the next byte advance (R67). -/
def State.feed (s : State) (b : Byte) : State :=
  { s with acc := s.acc ||| shl64 (dataBits b) s.shift.toNat, shift := s.shift + 7#7, i := s.i + 1#4 }

/-! ### What the spec leaves to any value -/

/-- After INCOMPLETE_STREAM each destination holds any value of its type (R74, R99, U1). -/
def State.freeOutputs (s : State) (valDst consDst : Ref) : State :=
  let t := s.updateValue valDst fun old => Config.freeValue s.draws old s.acc
  let u := t.updateCount consDst fun old => Config.freeCount s.draws old s.i.toNat
  { u with draws := s.draws + 1 }

end Sys2Proof.Machine
end

