-- ==== Sys2Proof/Machine/Operands.lean ====
section
/-!
DEFINITION. The references of a request: what storage stands behind each, and the host's side of the contract that a model
checks because the block cannot (20_memory.md R32 to R35, 70_reset_and_hazards.md R116 to R120). How much of a buffer is
needed is checked byte by byte, where it is accessed.
-/

namespace Sys2Proof.Machine

/-- A run of addresses. -/
structure Span where
  base : Nat
  len : Nat
  deriving DecidableEq, Repr

/-- Two runs share no address: one ends before the other begins. -/
def Span.apart (x y : Span) : Bool := decide (x.base + x.len ≤ y.base) || decide (y.base + y.len ≤ x.base)

/-- The storage behind a buffer reference: from its address to the end of the buffer. -/
def State.bufferSpan (s : State) (a : Nat) : Span := { base := a, len := s.room a }

/-- The storage of a count object: its own address at least. -/
def CountObj.span (c : CountObj) : Span := { base := c.addr, len := max 1 c.size }

/-- The storage of a 64-bit object: its own address at least. -/
def ValueObj.span (c : ValueObj) : Span := { base := c.addr, len := max 1 c.size }

/-- Why an encode with these references is outside the contract, if it is (R32, R33, R35). -/
def State.encodeContract (s : State) (dst : Nat) (lenDst : Ref) : Option Refusal :=
  if s.isDevice dst then some .deviceStorage
  else
    match lenDst with
    | none => none
    | some a =>
      match s.countAt a with
      | none => some .noCountObject
      | some c => if (s.bufferSpan dst).apart c.span then none else some .overlappingReferences

/-- Why a decode with these references is outside the contract, if it is (R32, R33, R35). -/
def State.decodeContract (s : State) (src valDst : Nat) (consDst : Ref) : Option Refusal :=
  if s.isDevice src then some .deviceStorage
  else
    match s.valueAt valDst with
    | none => some .noValueObject
    | some x =>
      if (s.bufferSpan src).apart x.span then
        match consDst with
        | none => none
        | some a =>
          match s.countAt a with
          | none => some .noCountObject
          | some c =>
            if (s.bufferSpan src).apart c.span && x.span.apart c.span then none else some .overlappingReferences
      else some .overlappingReferences

end Sys2Proof.Machine
end

