-- ==== Sys2Proof/Machine/Decoder.lean ====
section
/-!
DEFINITION. The sub-block varint_decoder_unsigned (41_decode_unsigned.md R67): the scan of the source, the operation shared by
DECU and DECS, and the meaning of DECU.
-/

namespace Sys2Proof.Machine

/-- How the scan of a source ends. -/
inductive Scan where
  /-- A terminating byte was read; the registers hold its result. -/
  | terminated (s : State)
  /-- Every position was read and each byte had bit 7 set. -/
  | exhausted (s : State)
  /-- The next byte lies past the end of the host's buffer. -/
  | short
  deriving DecidableEq, Repr

/-- `for i <- 0 to MAXLEN - 1` (R67), with the number of positions left: each byte's data is ORed in before its continuation
bit is tested, and no byte after the terminating one is read (R76). -/
def scan : Nat → Nat → State → Scan
  | 0, _, s => .exhausted s
  | left + 1, src, s =>
    match s.readByte src s.i.toNat with
    | none => .short
    | some b => if isCont b then scan left src (s.feed b) else .terminated (s.feed b)

/-- The decode of a stream (R67), with what is applied to the accumulator before it is written (R92). The ABSENT check comes
first, and touches nothing (R72, R100). The index of the next byte is the 1-based position reached, the consumed length. -/
def decodeWith (post : Word → Word) (src valDst consDst : Ref) (s : State) : Result :=
  match src, valDst with
  | none, none => .next (s.report .invalidArgument)
  | none, some _ => .next (s.report .invalidArgument)
  | some _, none => .next (s.report .invalidArgument)
  | some a, some vd =>
    match s.decodeContract a vd consDst with
    | some r => .refused r
    | none =>
      match scan maxLen a s.startDecode with
      | .short => .refused .sourceTooShort
      | .terminated t =>
        .next (((t.storeValue (some vd) (post t.acc)).storeCount consDst t.i.toNat).report .ok)
      | .exhausted t => .next ((t.freeOutputs (some vd) consDst).report .incompleteStream)

/-- DECU (R67): the accumulator is written as it is. -/
def execDecu (src valDst consDst : Ref) (s : State) : Result := decodeWith (fun x => x) src valDst consDst s

end Sys2Proof.Machine
end

