-- ==== Sys2Proof/Machine/Encoder.lean ====
section
/-!
DEFINITION. The sub-block varint_encoder_unsigned (40_encode_unsigned.md R58): the loop, the operation shared by ENCU and
ENCS, and the meaning of ENCU.
-/

namespace Sys2Proof.Machine

/-- `while v > 0x7F` (R58): emit a continuation byte, shift it out. The comparison is unsigned and the shift logical. -/
def encodeLoop : Nat → Nat → State → Result
  | 0, _, s => if 0x7F#64 < s.v then .fault .encoderUnfinished else .next s
  | fuel + 1, dst, s =>
    if 0x7F#64 < s.v then
      andThen (putByte dst s.n.toNat (contByte s.v) s) fun t => encodeLoop fuel dst t.shiftOut
    else .next s

/-- After the loop (R58): the final byte, the count if it is wanted, OK. -/
def encodeFinish (dst : Nat) (lenDst : Ref) (s : State) : Result :=
  andThen (putByte dst s.n.toNat (lastByte s.v) s) fun t =>
    .next ((t.countFinal.storeCount lenDst t.countFinal.n.toNat).report .ok)

/-- The encode of a 64-bit unsigned value (R58). An ABSENT destination is answered first and touches nothing (R64). -/
def encodeUnsigned (x : Word) (dst lenDst : Ref) (s : State) : Result :=
  match dst with
  | none => .next (s.report .invalidArgument)
  | some d =>
    match s.encodeContract d lenDst with
    | some r => .refused r
    | none => andThen (encodeLoop encodeFuel d (s.startEncode x)) (encodeFinish d lenDst)

/-- ENCU (R58). -/
def execEncu (value : Word) (dst lenDst : Ref) (s : State) : Result := encodeUnsigned value dst lenDst s

end Sys2Proof.Machine
end

