-- ==== Sys2Proof/Machine/Zigzag.lean ====
section
/-!
DEFINITION. The sub-block zig_zag_transform (42_zigzag_transform.md): two combinational functions on 64-bit patterns, with no
register, no memory access and no status (R14, R88). They have no selector code (30_encoding.md R54).
-/

namespace Sys2Proof.Machine

/-- ZZENC: `shl64(x, 1) ^ (x >>s 63)` (R80); the bit shifted out is discarded (R85). -/
def zzenc (x : Word) : Word := shl64 x 1 ^^^ x.sshiftRight 63

/-- ZZDEC: `~(u >>u 1)` when `u` is odd, `u >>u 1` when it is even (R81). -/
def zzdec (u : Word) : Word := if u.getLsbD 0 then ~~~(u >>> 1) else u >>> 1

end Sys2Proof.Machine
end

