-- ==== Sys2Proof/Machine/Signed.lean ====
section
/-!
DEFINITION. The signed operations (43_signed_ops.md): the zig-zag transform composed with the unsigned encode and decode.
-/

namespace Sys2Proof.Machine

/-- ENCS (R89): ENCU of ZZENC of the value. -/
def execEncs (value : Word) (dst lenDst : Ref) (s : State) : Result := encodeUnsigned (zzenc value) dst lenDst s

/-- DECS (R92): DECU with ZZDEC applied before the value is written. -/
def execDecs (src valDst consDst : Ref) (s : State) : Result := decodeWith zzdec src valDst consDst s

end Sys2Proof.Machine
end

