-- ==== Sys2Proof/Machine/Dispatch.lean ====
section
/-! DEFINITION. One arm per operation of the block; each is one call of its meaning. -/

namespace Sys2Proof.Machine

/-- The meaning of one operation, a whole transaction. -/
def exec (i : Instr) (s : State) : Host.Outcome State Fault Refusal :=
  match i with
  | .encu value dst lenDst => Sys2Proof.Machine.execEncu value dst lenDst s
  | .decu src valDst consDst => Sys2Proof.Machine.execDecu src valDst consDst s
  | .encs value dst lenDst => Sys2Proof.Machine.execEncs value dst lenDst s
  | .decs src valDst consDst => Sys2Proof.Machine.execDecs src valDst consDst s

end Sys2Proof.Machine
end

