-- ==== Sys2Proof/Machine/Inputs.lean ====
section
/-!
DEFINITION. What each action of the host does: a transaction, a reset, a transaction abandoned by a reset, and the host's own
stores between transactions (10_state.md R17, 20_memory.md R32 and R36, 70_reset_and_hazards.md R113, R125, R126).
-/

namespace Sys2Proof.Machine

/-- The registers and the response as reset leaves them; storage is the host's and stays (R21, R113). -/
def State.quiet (s : State) : State :=
  { s with v := State.reset.v, n := State.reset.n, acc := State.reset.acc, shift := State.reset.shift,
           i := State.reset.i, status := State.reset.status }

/-- Any value in each of `k` bytes from `a` on; it may depend on the byte before and on the byte the whole transaction would
have left (U6). -/
def loosenBytes (draw : Nat) (new : Memory) : Nat → Nat → State → State
  | 0, _, s => s
  | k + 1, a, s =>
    loosenBytes draw new k (a + 1) (s.setByte a (Config.freeByte draw a (s.mem.get a) (new.get a)))

/-- Any value in the count object behind a reference. -/
def loosenCount (draw : Nat) (new : State) (r : Ref) (s : State) : State :=
  s.updateCount r fun old => Config.freeCount draw old ((r.bind new.countVal).getD old)

/-- Any value in the 64-bit object behind a reference. -/
def loosenValue (draw : Nat) (new : State) (r : Ref) (s : State) : State :=
  s.updateValue r fun old => Config.freeValue draw old ((r.bind new.valueVal).getD old)

/-- Any value in the bytes behind a destination reference that the block could have written: indices 0 to MAXLEN - 1 (R23). -/
def loosenDst (draw : Nat) (new : State) (r : Ref) (s : State) : State :=
  match r with
  | none => s
  | some d => loosenBytes draw new.mem (min (s.room d) maxLen) d s

/-- Any value in the storage behind the operation's present write references (R113, U6); `new` is the state the whole
transaction would have left. -/
def loosen (draw : Nat) (new : State) (i : Instr) (s : State) : State :=
  match i with
  | .encu _ dst lenDst => loosenCount draw new lenDst (loosenDst draw new dst s)
  | .decu _ valDst consDst => loosenCount draw new consDst (loosenValue draw new valDst s)
  | .encs _ dst lenDst => loosenCount draw new lenDst (loosenDst draw new dst s)
  | .decs _ valDst consDst => loosenCount draw new consDst (loosenValue draw new valDst s)

/-- A reset while the transaction is in flight (R113): no status is reported, the storage it could write holds anything, the
block is idle. A request outside the contract still has no meaning. -/
def abandon (i : Instr) (s : State) : Result :=
  andThen (exec i s) fun t =>
    .next { (loosen t.draws t i s).quiet with draws := t.draws + 1 }

/-- The host stores a byte into one of its plain buffers (R32). -/
def hostStoreByte (a : Nat) (b : Byte) (s : State) : Result :=
  if 0 < s.room a ∧ s.isDevice a = false then .next (s.setByte a b) else .refused .hostStoreOutside

/-- The host stores into one of its count objects. -/
def hostStoreCount (a : Nat) (k : Nat) (s : State) : Result :=
  match s.countAt a with
  | none => .refused .hostStoreOutside
  | some _ => .next (s.storeCount (some a) k)

/-- The host stores into one of its 64-bit objects. -/
def hostStoreValue (a : Nat) (x : Word) (s : State) : Result :=
  match s.valueAt a with
  | none => .refused .hostStoreOutside
  | some _ => .next (s.storeValue (some a) x)

/-- One action of the host, once it is off the list. -/
def takeInput (x : Input) (s : State) : Result :=
  match x with
  | .request r => exec (decode r) s
  | .reset => .next s.quiet
  | .abandon r => abandon (decode r) s
  | .hostByte a b => hostStoreByte a b s
  | .hostCount a k => hostStoreCount a k s
  | .hostValue a v => hostStoreValue a v s

/-- One step of the machine: the host's oldest action, or nothing while the block is idle (60_exceptions.md R102, R109). -/
def advance (s : State) : Result :=
  match s.inputs with
  | [] => .next s
  | x :: rest => takeInput x { s with inputs := rest }

end Sys2Proof.Machine
end

