-- ==== Sys2Proof/Machine/Step.lean ====
section
/-! DEFINITION. The step of the machine, and how the host places an operation where the next step takes it (log 1). -/

namespace Sys2Proof.Machine

/-- One step: one whole action of the host (R6, D2). -/
def step (s : State) : Host.Outcome State Fault Refusal := advance s

/-- `s` with the operation of a table word as the host's next action. -/
def State.withFetchWord (s : State) (nbits w : Nat) : State :=
  { s with inputs := Input.request (tableRequest nbits w) :: s.inputs }

end Sys2Proof.Machine
end

