-- ==== Sys2Proof/Machine/Flags.lean ====
section
/-!
DEFINITION. There is no flag register and no condition code (10_state.md R16). The only outcome indicator is the status;
its 2-bit codes are here (30_encoding.md R53, D5).
-/

namespace Sys2Proof.Machine

/-- The status codes of R53; `11` is the code of no status. -/
def Status.code : Status → BitVec 2
  | .ok => 0b00#2
  | .invalidArgument => 0b01#2
  | .incompleteStream => 0b10#2

/-- The 2-bit response port while a status is pending. -/
def State.responsePort (s : State) : Option (BitVec 2) := s.status.map Status.code

end Sys2Proof.Machine
end

