-- ==== Sys2Proof/Machine/Stream.lean ====
section
/-!
DEFINITION. The stream format in closed form (30_encoding.md R40 to R46): the length of the canonical stream of a value, its
bytes, and the value a stream denotes. The operations run the spec's loops and do not use these; statements compare the two.
-/

namespace Sys2Proof.Machine

/-- `bitlen(v)` (00_scope.md section 6). -/
def bitlen (v : Word) : Nat := if v = 0#64 then 0 else Nat.log2 v.toNat + 1

/-- `L(v) = ceil(max(1, bitlen(v)) / 7)` (R45). -/
def encLen (v : Word) : Nat := (max 1 (bitlen v) + 6) / 7

/-- Byte `j` of the canonical stream: `(v >>u 7j) & 0x7F`, with 0x80 ORed in when `j < L - 1` (R43). -/
def streamByte (v : Word) (j : Nat) : Byte :=
  if j + 1 < encLen v then ((v >>> (7 * j)).setWidth 8 &&& dataMask) ||| contFlag
  else (v >>> (7 * j)).setWidth 8 &&& dataMask

/-- The canonical stream of a value (R43, R45). -/
def canonical (v : Word) : List Byte := (List.range (encLen v)).map (streamByte v)

/-- `sum over j of (b[j] & 0x7F) * 2^(7*j)` (R42), before the truncation. -/
def groupSum : List Byte → Nat
  | [] => 0
  | b :: t => (b &&& dataMask).toNat + 128 * groupSum t

/-- The value a stream denotes (R42). -/
def streamValue (bs : List Byte) : Word := BitVec.ofNat 64 (groupSum bs)

/-- A stream the decoder accepts: 1 to MAXLEN bytes, bit 7 set on every one but the last (R41, R75). -/
def IsStream (bs : List Byte) : Prop :=
  1 ≤ bs.length ∧ bs.length ≤ maxLen ∧ ∀ j (h : j < bs.length), isCont bs[j] = decide (j + 1 < bs.length)

/-- The first `k` bytes of memory from an address on. -/
def Memory.bytes (m : Memory) (a : Nat) (k : Nat) : List Byte := (List.range k).map fun j => m.get (a + j)

end Sys2Proof.Machine
end

