-- ==== Sys2Proof/Safety.lean ====
section
/-!
DEFINITION. The terms statements use: what a safe step is, the invariant of the machine, what a host can see, when a request
keeps the host's side of the contract, and what a completed transaction leaves.
-/

namespace Sys2Proof.Machine

/-- A step that raises no fault ("never raised as unrecoverable faults", R97). A refusal is the contract's, not the block's. -/
def SafeStep (s : State) : Prop := ∀ e, step s ≠ .fault e

/-! ### The invariant -/

/-- What holds of every state the machine reaches from one in which it holds. -/
structure State.Inv (s : State) : Prop where
  /-- Memory keeps its canonical form. -/
  memCanonical : s.mem.wf = true
  /-- Every byte listed lies in a buffer of the host (R19, R22). -/
  bytesInBuffers : ∀ c ∈ s.mem, ∃ e ∈ s.bufs, e.holds c.1 = true
  /-- No two count objects have one address. -/
  countsRising : (s.counts.map CountObj.addr).Pairwise (· < ·)
  /-- No two 64-bit objects have one address. -/
  valuesRising : (s.values.map ValueObj.addr).Pairwise (· < ·)
  /-- `shift = 7 * i` (R13). -/
  offsetOfIndex : s.shift.toNat = groupBits * s.i.toNat
  /-- `i` is 0 to MAXLEN (R13). -/
  indexBounded : s.i.toNat ≤ maxLen
  /-- `n` is 0 to MAXLEN (R12). -/
  emittedBounded : s.n.toNat ≤ maxLen
  /-- Between transactions what the encoder has left fits in 7 bits (R58). -/
  remainingSmall : s.v ≤ 0x7F#64

/-! ### What a host can see -/

/-- The state less the working registers, which are never visible to the host (10_state.md section 3). -/
def State.hostView (s : State) : State := { s with v := 0#64, n := 0#4, acc := 0#64, shift := 0#7, i := 0#4 }

/-- The state less the working registers and the last response: what the next transaction may depend on (R10, R16). -/
def State.idleView (s : State) : State := { s.hostView with status := none }

/-- Two steps a host cannot tell apart. -/
def sameToHost : Result → Result → Prop
  | .next s, .next t => s.hostView = t.hostView
  | .fault e, .fault f => e = f
  | .refused e, .refused f => e = f
  | .next _, .fault _ => False
  | .next _, .refused _ => False
  | .fault _, .next _ => False
  | .fault _, .refused _ => False
  | .refused _, .next _ => False
  | .refused _, .fault _ => False

/-! ### The references of an operation -/

/-- The destination buffer. -/
def dstRef : Instr → Ref
  | .encu _ dst _ => dst
  | .decu _ _ _ => none
  | .encs _ dst _ => dst
  | .decs _ _ _ => none

/-- The source buffer. -/
def srcRef : Instr → Ref
  | .encu _ _ _ => none
  | .decu src _ _ => src
  | .encs _ _ _ => none
  | .decs src _ _ => src

/-- The count destination. -/
def countRef : Instr → Ref
  | .encu _ _ lenDst => lenDst
  | .decu _ _ consDst => consDst
  | .encs _ _ lenDst => lenDst
  | .decs _ _ consDst => consDst

/-- The value destination. -/
def valueRef : Instr → Ref
  | .encu _ _ _ => none
  | .decu _ valDst _ => valDst
  | .encs _ _ _ => none
  | .decs _ valDst _ => valDst

/-- The storage behind a buffer reference. -/
def State.bufferSpans (s : State) (r : Ref) : List Span := (r.map s.bufferSpan).toList

/-- The storage behind the present references an operation reads (R37). -/
def State.storageOf (s : State) (i : Instr) : List Span :=
  s.bufferSpans (dstRef i) ++ s.bufferSpans (srcRef i) ++ (((countRef i).bind s.countAt).map CountObj.span).toList
    ++ (((valueRef i).bind s.valueAt).map ValueObj.span).toList

/-- No present reference of one operation overlaps a present reference of the other (R37). -/
def State.DisjointStorage (s : State) (i j : Instr) : Prop :=
  ∀ x ∈ s.storageOf i, ∀ y ∈ s.storageOf j, x.apart y = true

/-! ### The host's side of the contract -/

/-- The storage an encode of `k` bytes needs: plain, long enough, and a count object, if one is named, apart from it
(R32, R34, R35, R117, R120). -/
structure EncodeReady (s : State) (dst : Nat) (lenDst : Ref) (k : Nat) : Prop where
  plain : s.isDevice dst = false
  room : k ≤ s.room dst
  count : ∀ a, lenDst = some a → ∃ c, s.countAt a = some c ∧ (s.bufferSpan dst).apart c.span = true

/-- The storage a decode needs, its source's extent apart: plain memory, a 64-bit object and a count object, if one is named,
all apart from each other (R32, R35, R116, R120). -/
structure DecodeReady (s : State) (src valDst : Nat) (consDst : Ref) : Prop where
  plain : s.isDevice src = false
  value : ∃ x, s.valueAt valDst = some x ∧ (s.bufferSpan src).apart x.span = true ∧
    ∀ a, consDst = some a →
      ∃ c, s.countAt a = some c ∧ (s.bufferSpan src).apart c.span = true ∧ x.span.apart c.span = true

/-- The source holds a stream whose first terminating byte is at index `k`, inside its buffer (R27, R44, R118). -/
structure Terminates (s : State) (src : Nat) (k : Nat) : Prop where
  inCap : k < maxLen
  inRoom : k < s.room src
  before : ∀ j, j < k → isCont (s.mem.get (src + j)) = true
  last : isCont (s.mem.get (src + k)) = false

/-- The first MAXLEN bytes of the source all have bit 7 set, and its buffer holds them (R50, R71). -/
structure Unterminated (s : State) (src : Nat) : Prop where
  inRoom : maxLen ≤ s.room src
  all : ∀ j, j < maxLen → isCont (s.mem.get (src + j)) = true

/-! ### What a completed transaction leaves -/

/-- After an encode of the 64-bit unsigned `x` that answers OK (R26, R58 to R65): the bytes, the count if one is wanted and
the status; nothing else changes. The working registers are dead then (R12, R13) and have a structure of their own. -/
structure EncodeEffect (x : Word) (dst : Nat) (lenDst : Ref) (s t : State) : Prop where
  status : t.status = some .ok
  bytes : ∀ a, t.mem.get a = if dst ≤ a ∧ a < dst + encLen x then streamByte x (a - dst) else s.mem.get a
  counts : ∀ a, t.countAt a =
    if lenDst = some a then (s.countAt a).map fun c => { c with val := encLen x } else s.countAt a
  values : t.values = s.values
  bufs : t.bufs = s.bufs
  inputs : t.inputs = s.inputs
  draws : t.draws = s.draws

/-- After a decode that answers OK with terminating byte at index `k` (R27, R28, R67 to R70): `w` in the value destination,
the consumed length if it is wanted and the status; nothing else changes. The working registers stand apart (R12, R13). -/
structure DecodeEffect (w : Word) (valDst : Nat) (consDst : Ref) (k : Nat) (s t : State) : Prop where
  status : t.status = some .ok
  values : ∀ a, t.valueAt a = if a = valDst then (s.valueAt a).map fun c => { c with val := w } else s.valueAt a
  counts : ∀ a, t.countAt a =
    if consDst = some a then (s.countAt a).map fun c => { c with val := k + 1 } else s.countAt a
  mem : t.mem = s.mem
  bufs : t.bufs = s.bufs
  inputs : t.inputs = s.inputs
  draws : t.draws = s.draws

/-- After a decode that answers INCOMPLETE_STREAM (R71, R74, R99): the two destinations keep their place and hold anything;
nothing else of the host's storage changes. -/
structure IncompleteEffect (valDst : Nat) (consDst : Ref) (s t : State) : Prop where
  status : t.status = some .incompleteStream
  values : ∀ a, a ≠ valDst → t.valueAt a = s.valueAt a
  value : ∃ w, t.valueAt valDst = (s.valueAt valDst).map fun c => { c with val := w }
  counts : ∀ a, consDst ≠ some a → t.countAt a = s.countAt a
  count : ∀ a, consDst = some a → ∃ k, t.countAt a = (s.countAt a).map fun c => { c with val := k }
  mem : t.mem = s.mem
  bufs : t.bufs = s.bufs
  inputs : t.inputs = s.inputs

/-! ### The working registers a transaction leaves: dead in the spec (R12, R13), the model's (log 15) -/

/-- THE MODEL'S (log 15): the registers after an encode of the 64-bit unsigned `x` that answers OK. The count is all of its
bytes, the last one too; the value is shifted out but for the last group; the decoder's half stays. -/
structure EncodeRegisters (x : Word) (s t : State) : Prop where
  emitted : t.n.toNat = encLen x
  remaining : t.v = x >>> (7 * (encLen x - 1))
  acc : t.acc = s.acc
  shift : t.shift = s.shift
  index : t.i = s.i

/-- THE MODEL'S (log 15): the registers after a decode that read `m` bytes, whether it found the stream's end or not. The
accumulator holds their value and the index is that of the byte after them; the encoder's half stays. -/
structure DecodeRegisters (src m : Nat) (s t : State) : Prop where
  acc : t.acc = streamValue (s.mem.bytes src m)
  index : t.i.toNat = m
  shift : t.shift.toNat = 7 * m
  emitted : t.n = s.n
  remaining : t.v = s.v

/-! ### Frames: what an operation leaves alone whenever it answers -/

/-- The frame of an encode of the 64-bit unsigned `x` (R26, R28, R64, R65). The bytes it may store are the `L(x)` bytes from
the destination on; with an ABSENT destination nothing but the response changes. That the decoder's registers stay is the
model's (log 15). -/
structure EncodeFrame (x : Word) (dst lenDst : Ref) (s t : State) : Prop where
  bytes : ∀ a, (∀ d, dst = some d → a < d ∨ d + encLen x ≤ a) → t.mem.get a = s.mem.get a
  counts : ∀ a, lenDst ≠ some a → t.countAt a = s.countAt a
  values : t.values = s.values
  bufs : t.bufs = s.bufs
  inputs : t.inputs = s.inputs
  draws : t.draws = s.draws
  acc : t.acc = s.acc
  shift : t.shift = s.shift
  index : t.i = s.i
  absent : dst = none → t = s.report .invalidArgument

/-- The frame of a decode (R27, R28, R72, R79): no byte of memory, no object but the two destinations, no encoder
register (the model's: log 15). -/
structure DecodeFrame (src valDst consDst : Ref) (s t : State) : Prop where
  mem : t.mem = s.mem
  counts : ∀ a, consDst ≠ some a → t.countAt a = s.countAt a
  values : ∀ a, valDst ≠ some a → t.valueAt a = s.valueAt a
  bufs : t.bufs = s.bufs
  inputs : t.inputs = s.inputs
  draws : t.status ≠ some .incompleteStream → t.draws = s.draws
  emitted : t.n = s.n
  remaining : t.v = s.v
  absent : src = none ∨ valDst = none → t = s.report .invalidArgument

/-- The state with what the spec leaves unspecified put aside: after INCOMPLETE_STREAM the two destinations of the operation
may hold anything, so their contents are replaced by 0; after any other status nothing is (R74, R99). -/
def State.setAside (s : State) (i : Instr) (answered : Option Status) : State :=
  if answered = some .incompleteStream then
    (s.updateCount (countRef i) fun _ => 0).updateValue (valueRef i) fun _ => 0#64
  else s

/-- Two states in which the host has the same storage, byte for byte and object for object. -/
def sameStorage (s t : State) : Prop :=
  (∀ a, s.mem.get a = t.mem.get a) ∧ s.counts = t.counts ∧ s.values = t.values ∧ s.bufs = t.bufs

end Sys2Proof.Machine
end

