-- ==== Sys2Proof/WellFormed.lean ====
section
/-!
DEFINITION. What makes an operation writable as a request on a host with an address space of `aw` bits. AW is open and is
taken as an argument (00_scope.md parameter table, 20_memory.md R23, D12). Every 64-bit value is legal (10_state.md R11), an
ABSENT reference is always writable (R33), so the only checks are on addresses. Nothing in `exec` consults this: in the model
an index past the host's buffer stops by name, which covers a wrapped index (log 4).
-/

namespace Sys2Proof

/-- A scalar reference lies in the address space. -/
def scalarFits (aw : Nat) : Ref → Bool
  | none => true
  | some a => decide (a < 2 ^ aw)

/-- A buffer reference leaves room for MAXLEN - 1 more addresses: `reference + MAXLEN - 1` does not pass the top (R23). -/
def bufferFits (aw : Nat) : Ref → Bool
  | none => true
  | some a => decide (a + (Machine.maxLen - 1) < 2 ^ aw)

/-- The operation can be requested in an address space of `aw` bits (R23). -/
def WellFormed (aw : Nat) : Instr → Bool
  | .encu _ dst lenDst => bufferFits aw dst && scalarFits aw lenDst
  | .decu src valDst consDst => bufferFits aw src && scalarFits aw valDst && scalarFits aw consDst
  | .encs _ dst lenDst => bufferFits aw dst && scalarFits aw lenDst
  | .decs src valDst consDst => bufferFits aw src && scalarFits aw valDst && scalarFits aw consDst

end Sys2Proof
end

