-- ==== Sys2Proof/Certificates/Slice0/Obligations.lean ====
section
/-! DEFINITION. The statements for the provers, each from numbered rules of spec/ or from the sections its entry names. -/

open Sys2Proof Sys2Proof.Machine

/-! ### Requests, selector, step -/

/-- A step whose next action is a request runs the decoded operation, the request off the list (R15, R17, R52). -/
def Obligations.StepRunsRequestedOperation : Prop :=
  ∀ (s : State) (r : Request) (rest : List Input), s.inputs = .request r :: rest →
    step s = exec (decode r) { s with inputs := rest }

/-- The operation a table word selects is the one the next step runs. -/
def Obligations.PlacedWordRunsNext : Prop :=
  ∀ (s : State) (nbits w : Nat),
    ∃ i, decodeTableWord nbits w = some i ∧ step (s.withFetchWord nbits w) = exec i s

/-- R52's table: each of the four selector codes, with the fields its operation reads. -/
def Obligations.SelectorChoosesOperation : Prop :=
  ∀ r : Request,
    (r.op = 0b00#2 → decode r = .encu r.valueIn r.dst.ref r.lenDst.ref) ∧
    (r.op = 0b01#2 → decode r = .decu r.src.ref r.valDst.ref r.consDst.ref) ∧
    (r.op = 0b10#2 → decode r = .encs r.valueIn r.dst.ref r.lenDst.ref) ∧
    (r.op = 0b11#2 → decode r = .decs r.src.ref r.valDst.ref r.consDst.ref)

/-- A few requests written out from the spec's tables decode to the operations they stand for (P1, P2; R33, R52). -/
def Obligations.WrittenRequestsDecode : Prop :=
  decode { op := 0b00#2, valueIn := 0x12C#64, dst := ⟨true, 64⟩, lenDst := ⟨true, 96⟩, src := ⟨true, 7⟩,
           valDst := ⟨false, 8⟩, consDst := ⟨true, 9⟩ } = .encu 300#64 (some 64) (some 96) ∧
  decode { op := 0b01#2, valueIn := 5#64, dst := ⟨true, 1⟩, lenDst := ⟨true, 2⟩, src := ⟨true, 64⟩,
           valDst := ⟨true, 104⟩, consDst := ⟨false, 96⟩ } = .decu (some 64) (some 104) none ∧
  decode { op := 0b10#2, valueIn := 0xFFFFFFFFFFFFFFFE#64, dst := ⟨true, 64⟩, lenDst := ⟨false, 96⟩, src := ⟨false, 0⟩,
           valDst := ⟨false, 0⟩, consDst := ⟨false, 0⟩ } = .encs (-2#64) (some 64) none ∧
  decode { op := 0b11#2, valueIn := 0#64, dst := ⟨false, 0⟩, lenDst := ⟨false, 0⟩, src := ⟨true, 65⟩,
           valDst := ⟨true, 104⟩, consDst := ⟨true, 96⟩ } = .decs (some 65) (some 104) (some 96)

/-- Encoding an operation as a request and decoding it gives it back, every operand at every value. -/
def Obligations.DecodeOfEncode : Prop := ∀ i : Instr, decode (encode i) = i

/-- "A field the selected operation does not read is ignored: its value and its presence change nothing" (R17, U8). -/
def Obligations.UnreadFieldsAreIgnored : Prop :=
  ∀ (r q : Request) (s : State) (rest : List Input), r.op = q.op →
    (r.op.getLsbD 0 = false → r.valueIn = q.valueIn ∧ r.dst.ref = q.dst.ref ∧ r.lenDst.ref = q.lenDst.ref) →
    (r.op.getLsbD 0 = true → r.src.ref = q.src.ref ∧ r.valDst.ref = q.valDst.ref ∧ r.consDst.ref = q.consDst.ref) →
    step { s with inputs := .request r :: rest } = step { s with inputs := .request q :: rest }

/-- R53: the three codes; no status has the code 11. -/
def Obligations.StatusCodesOfTable : Prop :=
  Status.code .ok = 0b00#2 ∧ Status.code .invalidArgument = 0b01#2 ∧ Status.code .incompleteStream = 0b10#2 ∧
    ∀ st : Status, Status.code st ≠ 0b11#2

/-! ### The encoder -/

/-- ENCU on storage that keeps the contract writes the canonical stream and its length, answers OK, and changes nothing else a
host has (R60, R63, R65); the working registers are `WorkingRegistersAfter`'s. -/
def Obligations.EncuWritesCanonicalStream : Prop :=
  ∀ (x : Word) (dst : Nat) (lenDst : Ref) (s : State), EncodeReady s dst lenDst (encLen x) →
    ∃ t, exec (.encu x (some dst) lenDst) s = .next t ∧ EncodeEffect x dst lenDst s t

/-- R89: ENCS does exactly that with ZZENC of the value; whatever its references, it does what ENCU does with ZZENC of it. -/
def Obligations.EncsWritesZigzagStream : Prop :=
  (∀ (x : Word) (dst : Nat) (lenDst : Ref) (s : State), EncodeReady s dst lenDst (encLen (zzenc x)) →
    ∃ t, exec (.encs x (some dst) lenDst) s = .next t ∧ EncodeEffect (zzenc x) dst lenDst s t) ∧
  (∀ (x : Word) (dst lenDst : Ref) (s : State), exec (.encs x dst lenDst) s = exec (.encu (zzenc x) dst lenDst) s)

/-- R64, R91: an ABSENT destination gives INVALID_ARGUMENT and changes nothing but the response, for every value. -/
def Obligations.AbsentDestinationIsInvalid : Prop :=
  ∀ (x : Word) (lenDst : Ref) (s : State),
    exec (.encu x none lenDst) s = .next (s.report .invalidArgument) ∧
    exec (.encs x none lenDst) s = .next (s.report .invalidArgument)

/-- Whenever ENCU or ENCS answers, it leaves alone what is not its destination, its count or its own registers. That the
decoder's registers stay is the model's (log 15). -/
def Obligations.EncodeLeavesTheRestAlone : Prop :=
  (∀ (x : Word) (dst lenDst : Ref) (s t : State), exec (.encu x dst lenDst) s = .next t → EncodeFrame x dst lenDst s t) ∧
  (∀ (x : Word) (dst lenDst : Ref) (s t : State), exec (.encs x dst lenDst) s = .next t →
    EncodeFrame (zzenc x) dst lenDst s t)

/-! ### The decoder -/

/-- DECU on a terminated source writes the value of its bytes and the 1-based position reached, answers OK, and changes
nothing else a host has (R69, R73); canonical, overlong and overflowing streams alike. -/
def Obligations.DecuReadsStream : Prop :=
  ∀ (src valDst : Nat) (consDst : Ref) (k : Nat) (s : State), DecodeReady s src valDst consDst → Terminates s src k →
    ∃ t, exec (.decu (some src) (some valDst) consDst) s = .next t ∧
      DecodeEffect (streamValue (s.mem.bytes src (k + 1))) valDst consDst k s t

/-- DECS does the same and writes ZZDEC of that value (R92, R94). -/
def Obligations.DecsReadsZigzagStream : Prop :=
  ∀ (src valDst : Nat) (consDst : Ref) (k : Nat) (s : State), DecodeReady s src valDst consDst → Terminates s src k →
    ∃ t, exec (.decs (some src) (some valDst) consDst) s = .next t ∧
      DecodeEffect (zzdec (streamValue (s.mem.bytes src (k + 1)))) valDst consDst k s t

/-- R71, R74, R99: MAXLEN continuation bytes give INCOMPLETE_STREAM; the source is unchanged, the destinations hold
anything. -/
def Obligations.UnterminatedStreamIsIncomplete : Prop :=
  ∀ (src valDst : Nat) (consDst : Ref) (s : State), DecodeReady s src valDst consDst → Unterminated s src →
    (∃ t, exec (.decu (some src) (some valDst) consDst) s = .next t ∧ IncompleteEffect valDst consDst s t) ∧
    (∃ t, exec (.decs (some src) (some valDst) consDst) s = .next t ∧ IncompleteEffect valDst consDst s t)

/-- R72, R94, R100: an ABSENT source or value destination gives INVALID_ARGUMENT, whatever the source holds, and changes
nothing but the response. -/
def Obligations.AbsentDecodeReferenceIsInvalid : Prop :=
  ∀ (src valDst consDst : Ref) (s : State), src = none ∨ valDst = none →
    exec (.decu src valDst consDst) s = .next (s.report .invalidArgument) ∧
    exec (.decs src valDst consDst) s = .next (s.report .invalidArgument)

/-- Whenever DECU or DECS answers, it leaves alone what is not its two destinations or its own registers. That the encoder's
registers stay is the model's (log 15). -/
def Obligations.DecodeLeavesTheRestAlone : Prop :=
  ∀ (src valDst consDst : Ref) (s t : State),
    exec (.decu src valDst consDst) s = .next t ∨ exec (.decs src valDst consDst) s = .next t →
    DecodeFrame src valDst consDst s t

/-- R27, R76: bytes outside the ones read change nothing but themselves: whatever is stored before the source or after the
last byte read, the decode answers the same state with that byte stored. That the register `i` still counts the bytes read
when the transaction is over is the model's (log 15). -/
def Obligations.OnlyTheBytesReadMatter : Prop :=
  ∀ (src : Nat) (valDst consDst : Ref) (s t : State) (a : Nat) (b : Byte), a < src ∨ src + t.i.toNat ≤ a →
    (exec (.decu (some src) valDst consDst) s = .next t → t.status ≠ some .invalidArgument →
      exec (.decu (some src) valDst consDst) (s.setByte a b) = .next (t.setByte a b)) ∧
    (exec (.decs (some src) valDst consDst) s = .next t → t.status ≠ some .invalidArgument →
      exec (.decs (some src) valDst consDst) (s.setByte a b) = .next (t.setByte a b))

/-- R48, R70: of a tenth byte that ends the stream only bit 0 reaches the result; its bits 6 to 1 change nothing. That
ten bytes were read is seen in the register `i`, which is the model's (log 15). -/
def Obligations.OverflowBitsAreIgnored : Prop :=
  ∀ (src : Nat) (valDst consDst : Ref) (s t : State) (b : Byte), t.status = some .ok → t.i.toNat = maxLen →
    isCont b = false → b.getLsbD 0 = (s.mem.get (src + (maxLen - 1))).getLsbD 0 →
    (exec (.decu (some src) valDst consDst) s = .next t →
      exec (.decu (some src) valDst consDst) (s.setByte (src + (maxLen - 1)) b) =
        .next (t.setByte (src + (maxLen - 1)) b)) ∧
    (exec (.decs (some src) valDst consDst) s = .next t →
      exec (.decs (some src) valDst consDst) (s.setByte (src + (maxLen - 1)) b) =
        .next (t.setByte (src + (maxLen - 1)) b))

/-- THE MODEL'S, no rule of the spec (log 15): what the working registers, dead by then (R12, R13), hold after each operation
that took its request up. -/
def Obligations.WorkingRegistersAfter : Prop :=
  (∀ (x : Word) (dst : Nat) (lenDst : Ref) (s t : State), exec (.encu x (some dst) lenDst) s = .next t →
    EncodeRegisters x s t) ∧
  (∀ (x : Word) (dst : Nat) (lenDst : Ref) (s t : State), exec (.encs x (some dst) lenDst) s = .next t →
    EncodeRegisters (zzenc x) s t) ∧
  (∀ (src valDst : Nat) (consDst : Ref) (s t : State),
    exec (.decu (some src) (some valDst) consDst) s = .next t ∨ exec (.decs (some src) (some valDst) consDst) s = .next t →
    (∀ k, Terminates s src k → DecodeRegisters src (k + 1) s t) ∧
    (Unterminated s src → DecodeRegisters src maxLen s t))

/-! ### The stream format -/

/-- R41: a canonical stream has 1 to MAXLEN bytes, bit 7 set on every one but the last; of two bytes or more the last is not
zero (R45). -/
def Obligations.CanonicalStreamShape : Prop :=
  ∀ v : Word, 1 ≤ (canonical v).length ∧ (canonical v).length ≤ maxLen ∧
    (∀ j (h : j < (canonical v).length), isCont (canonical v)[j] = decide (j + 1 < (canonical v).length)) ∧
    (2 ≤ (canonical v).length → (canonical v).getLast? ≠ some 0#8)

/-- R45's table, and that no stream that denotes the value is shorter. -/
def Obligations.LengthFollowsTable : Prop :=
  (∀ (v : Word) (k : Nat), 1 ≤ k → k ≤ maxLen →
    (encLen v = k ↔ (k = 1 ∨ 2 ^ (7 * (k - 1)) ≤ v.toNat) ∧ v.toNat < 2 ^ (7 * k))) ∧
  (∀ bs : List Byte, bs ≠ [] → encLen (streamValue bs) ≤ bs.length)

/-- R46: the greatest canonical length is MAXLEN, that of 2^64 - 1; below 2^63 nine bytes suffice. -/
def Obligations.GreatestLengthIsMaxlen : Prop :=
  encLen 0xFFFFFFFFFFFFFFFF#64 = maxLen ∧ (∀ v : Word, encLen v ≤ maxLen) ∧
    ∀ v : Word, encLen v ≤ 9 ↔ v.toNat < 2 ^ 63

/-- R42, R43: splitting a value into bytes and assembling them gives it back. -/
def Obligations.AssemblingInvertsSplitting : Prop := ∀ v : Word, streamValue (canonical v) = v

/-- R47: if one canonical stream begins another, they are streams of one value. -/
def Obligations.CanonicalStreamsArePrefixFree : Prop :=
  ∀ (v w : Word) (rest : List Byte), canonical w = canonical v ++ rest → v = w

/-- R78: wherever the canonical bytes of a value stand, whatever follows them, DECU gives the value and consumes its length. -/
def Obligations.DecuInvertsCanonicalBytes : Prop :=
  ∀ (v : Word) (src valDst : Nat) (consDst : Ref) (s : State), DecodeReady s src valDst consDst →
    encLen v ≤ s.room src → (∀ j, j < encLen v → s.mem.get (src + j) = streamByte v j) →
    ∃ t, exec (.decu (some src) (some valDst) consDst) s = .next t ∧
      DecodeEffect v valDst consDst (encLen v - 1) s t

/-! ### The zig-zag transform -/

/-- R82: the arithmetic of the transform, both ways; its parity is part of it. -/
def Obligations.ZigzagArithmetic : Prop :=
  (∀ x : Word, ((zzenc x).toNat : Int) = if 0 ≤ x.toInt then 2 * x.toInt else -2 * x.toInt - 1) ∧
  (∀ u : Word, (zzdec u).toInt = if u.toNat % 2 = 0 then (u.toNat : Int) / 2 else -((u.toNat + 1 : Int) / 2))

/-- R84: a bijection, each the inverse of the other. -/
def Obligations.ZigzagIsABijection : Prop :=
  (∀ x : Word, zzdec (zzenc x) = x) ∧ ∀ u : Word, zzenc (zzdec u) = u

/-- R87: the branch-free form. -/
def Obligations.ZigzagBranchFree : Prop := ∀ u : Word, zzdec u = (u >>> 1) ^^^ (0#64 - (u &&& 1#64))

/-- R83: the first values of the mapping. -/
def Obligations.ZigzagFirstValues : Prop :=
  zzenc 0#64 = 0#64 ∧ zzenc (-1#64) = 1#64 ∧ zzenc 1#64 = 2#64 ∧ zzenc (-2#64) = 3#64 ∧ zzenc 2#64 = 4#64 ∧
    zzenc (-3#64) = 5#64 ∧ zzenc 3#64 = 6#64

/-- R86: the extremes, when a signed value needs ten bytes, and how its length grows. -/
def Obligations.SignedLengths : Prop :=
  zzenc 0x7FFFFFFFFFFFFFFF#64 = 0xFFFFFFFFFFFFFFFE#64 ∧ zzenc 0x8000000000000000#64 = 0xFFFFFFFFFFFFFFFF#64 ∧
  zzenc 0x3FFFFFFFFFFFFFFF#64 = 0x7FFFFFFFFFFFFFFE#64 ∧ zzenc 0xC000000000000000#64 = 0x7FFFFFFFFFFFFFFF#64 ∧
  zzenc 0x4000000000000000#64 = 0x8000000000000000#64 ∧ zzenc 0xBFFFFFFFFFFFFFFF#64 = 0x8000000000000001#64 ∧
  (∀ x : Word, encLen (zzenc x) = 10 ↔ (2 ^ 62 ≤ x.toInt ∨ x.toInt < -2 ^ 62)) ∧
  (∀ x : Word, 0 < x.toInt → bitlen (zzenc x) = bitlen x + 1) ∧
  (∀ x : Word, x.toInt < 0 → bitlen (zzenc x) = bitlen (-x - 1#64) + 1)

/-! ### Encode and decode together -/

/-- R66, R78: on storage that keeps both contracts, DECU on the bytes ENCU wrote gives the value back and the length ENCU
reported, for every `U64`; and different values never give the same bytes, while a stream DECU accepts need not be the one
ENCU writes for its value (R75). -/
def Obligations.UnsignedRoundTrip : Prop :=
  (∀ (v : Word) (buf valDst : Nat) (lenDst consDst : Ref) (s : State), EncodeReady s buf lenDst (encLen v) →
    DecodeReady s buf valDst consDst →
    ∃ t u, exec (.encu v (some buf) lenDst) s = .next t ∧ exec (.decu (some buf) (some valDst) consDst) t = .next u ∧
      t.status = some .ok ∧ u.status = some .ok ∧ u.valueVal valDst = some v ∧
      (∀ a, lenDst = some a → t.countVal a = some (encLen v)) ∧
      (∀ a, consDst = some a → u.countVal a = some (encLen v))) ∧
  (∀ v w : Word, canonical v = canonical w → v = w) ∧
  (∃ bs : List Byte, IsStream bs ∧ streamValue bs = 0#64 ∧ bs ≠ canonical (streamValue bs))

/-- R95: the same of ENCS and DECS, for every `S64`, the minimum included. -/
def Obligations.SignedRoundTrip : Prop :=
  ∀ (v : Word) (buf valDst : Nat) (lenDst consDst : Ref) (s : State), EncodeReady s buf lenDst (encLen (zzenc v)) →
    DecodeReady s buf valDst consDst →
    ∃ t u, exec (.encs v (some buf) lenDst) s = .next t ∧ exec (.decs (some buf) (some valDst) consDst) t = .next u ∧
      t.status = some .ok ∧ u.status = some .ok ∧ u.valueVal valDst = some v ∧
      (∀ a, lenDst = some a → t.countVal a = some (encLen (zzenc v))) ∧
      (∀ a, consDst = some a → u.countVal a = some (encLen (zzenc v)))

/-- R96: decoding with the other signedness succeeds and gives the transform of the value. -/
def Obligations.MismatchedSignednessSucceeds : Prop :=
  ∀ (v : Word) (buf valDst : Nat) (lenDst consDst : Ref) (s : State), DecodeReady s buf valDst consDst →
    (EncodeReady s buf lenDst (encLen (zzenc v)) →
      ∃ t u, exec (.encs v (some buf) lenDst) s = .next t ∧ exec (.decu (some buf) (some valDst) consDst) t = .next u ∧
        u.status = some .ok ∧ u.valueVal valDst = some (zzenc v)) ∧
    (EncodeReady s buf lenDst (encLen v) →
      ∃ t u, exec (.encu v (some buf) lenDst) s = .next t ∧ exec (.decs (some buf) (some valDst) consDst) t = .next u ∧
        u.status = some .ok ∧ u.valueVal valDst = some (zzdec v))

/-- R93: DECS answers exactly when DECU does, with its status and consumed length, and on OK writes ZZDEC of DECU's value. -/
def Obligations.DecsFollowsDecu : Prop :=
  (∀ (src valDst consDst : Ref) (s t : State), exec (.decu src valDst consDst) s = .next t →
    ∃ u, exec (.decs src valDst consDst) s = .next u ∧ u.status = t.status ∧
      (t.status = some .ok →
        (∀ a, u.countVal a = t.countVal a) ∧
        ∀ a, valDst = some a → ∃ w, t.valueVal a = some w ∧ u.valueVal a = some (zzdec w))) ∧
  (∀ (src valDst consDst : Ref) (s u : State), exec (.decs src valDst consDst) s = .next u →
    ∃ t, exec (.decu src valDst consDst) s = .next t)

/-! ### Statuses and stops -/

/-- R103: which operation answers which status, and when. -/
def Obligations.StatusesByOperation : Prop :=
  (∀ (x : Word) (dst lenDst : Ref) (s t : State),
    exec (.encu x dst lenDst) s = .next t ∨ exec (.encs x dst lenDst) s = .next t →
    (dst = none ∧ t.status = some .invalidArgument) ∨ (dst ≠ none ∧ t.status = some .ok)) ∧
  (∀ (src valDst consDst : Ref) (s t : State),
    exec (.decu src valDst consDst) s = .next t ∨ exec (.decs src valDst consDst) s = .next t →
    ((src = none ∨ valDst = none) ∧ t.status = some .invalidArgument) ∨
    (∃ a k, src = some a ∧ valDst ≠ none ∧ Terminates s a k ∧ t.status = some .ok) ∨
    (∃ a, src = some a ∧ valDst ≠ none ∧ Unterminated s a ∧ t.status = some .incompleteStream))

/-- R34, R117, R118: a destination one byte too short, or a source that ends before a terminating byte or the cap, is outside
the contract and stops by name; nothing shorter than that does. -/
def Obligations.BrokenCapacityStops : Prop :=
  (∀ (x : Word) (dst : Nat) (lenDst : Ref) (s : State), EncodeReady s dst lenDst 0 →
    (exec (.encu x (some dst) lenDst) s = .refused .destinationTooSmall ↔ s.room dst < encLen x) ∧
    (exec (.encs x (some dst) lenDst) s = .refused .destinationTooSmall ↔ s.room dst < encLen (zzenc x))) ∧
  (∀ (src valDst : Nat) (consDst : Ref) (s : State), DecodeReady s src valDst consDst →
    (exec (.decu (some src) (some valDst) consDst) s = .refused .sourceTooShort ↔
      s.room src < maxLen ∧ ∀ j, j < s.room src → isCont (s.mem.get (src + j)) = true) ∧
    (exec (.decs (some src) (some valDst) consDst) s = .refused .sourceTooShort ↔
      s.room src < maxLen ∧ ∀ j, j < s.room src → isCont (s.mem.get (src + j)) = true))

/-- R32, R35: device storage behind a buffer reference, and two present references of one request that overlap, are outside
the contract and stop by name (log 7). A value over the source stops whatever the count reference is. -/
def Obligations.DeviceOrOverlapStops : Prop :=
  (∀ (x : Word) (dst : Nat) (lenDst : Ref) (s : State), s.isDevice dst = true →
    exec (.encu x (some dst) lenDst) s = .refused .deviceStorage ∧
    exec (.encs x (some dst) lenDst) s = .refused .deviceStorage) ∧
  (∀ (src valDst : Nat) (consDst : Ref) (s : State), s.isDevice src = true →
    exec (.decu (some src) (some valDst) consDst) s = .refused .deviceStorage ∧
    exec (.decs (some src) (some valDst) consDst) s = .refused .deviceStorage) ∧
  (∀ (x : Word) (dst a : Nat) (c : CountObj) (s : State), s.isDevice dst = false → s.countAt a = some c →
    (s.bufferSpan dst).apart c.span = false →
    exec (.encu x (some dst) (some a)) s = .refused .overlappingReferences ∧
    exec (.encs x (some dst) (some a)) s = .refused .overlappingReferences) ∧
  (∀ (src valDst : Nat) (consDst : Ref) (x : ValueObj) (s : State), s.isDevice src = false →
    s.valueAt valDst = some x → (s.bufferSpan src).apart x.span = false →
    exec (.decu (some src) (some valDst) consDst) s = .refused .overlappingReferences ∧
    exec (.decs (some src) (some valDst) consDst) s = .refused .overlappingReferences) ∧
  (∀ (src valDst a : Nat) (x : ValueObj) (c : CountObj) (s : State), s.isDevice src = false →
    s.valueAt valDst = some x → s.countAt a = some c →
    (s.bufferSpan src).apart c.span = false ∨ x.span.apart c.span = false →
    exec (.decu (some src) (some valDst) (some a)) s = .refused .overlappingReferences ∧
    exec (.decs (some src) (some valDst) (some a)) s = .refused .overlappingReferences)

/-- The model's reading of a present reference that designates no object (R33, R34; log 6): it stops by name. -/
def Obligations.MissingObjectStops : Prop :=
  (∀ (x : Word) (dst a : Nat) (s : State), s.isDevice dst = false → s.countAt a = none →
    exec (.encu x (some dst) (some a)) s = .refused .noCountObject ∧
    exec (.encs x (some dst) (some a)) s = .refused .noCountObject) ∧
  (∀ (src valDst : Nat) (consDst : Ref) (s : State), s.isDevice src = false → s.valueAt valDst = none →
    exec (.decu (some src) (some valDst) consDst) s = .refused .noValueObject ∧
    exec (.decs (some src) (some valDst) consDst) s = .refused .noValueObject) ∧
  (∀ (src valDst a : Nat) (x : ValueObj) (s : State), s.isDevice src = false → s.valueAt valDst = some x →
    (s.bufferSpan src).apart x.span = true → s.countAt a = none →
    exec (.decu (some src) (some valDst) (some a)) s = .refused .noCountObject ∧
    exec (.decs (some src) (some valDst) (some a)) s = .refused .noCountObject)

/-- R97, R62, R77, R124: no step raises a fault, from any state; the encoder's loop always ends. -/
def Obligations.StepNeverFaults : Prop := ∀ s : State, SafeStep s

/-- R23: an operation that can be requested in an address space of `aw` bits stores nothing past its top. -/
def Obligations.StoresStayInAddressSpace : Prop :=
  ∀ (aw : Nat) (i : Instr) (s t : State), WellFormed aw i = true → exec i s = .next t →
    ∀ a, 2 ^ aw ≤ a → t.mem.get a = s.mem.get a

/-! ### Nothing is kept between transactions -/

/-- R10, R16, R20: what a transaction answers, and all a host can see of the state it leaves, does not depend on the working
registers or on the status of an earlier transaction. -/
def Obligations.TransactionsKeepNothing : Prop :=
  ∀ (i : Instr) (s t : State), s.idleView = t.idleView → sameToHost (exec i s) (exec i t)

/-- The same of every step the machine can take, resets and abandoned transactions among them. -/
def Obligations.StepsHideWorkingRegisters : Prop :=
  ∀ s t : State, s.hostView = t.hostView → sameToHost (step s) (step t)

/-- R7, R102: an operation issued again answers the same status and leaves memory the same; unless it was incomplete, it
leaves the very same state. -/
def Obligations.RepeatedRequestAnswersTheSame : Prop :=
  ∀ (i : Instr) (s t : State), s.mem.wf = true → exec i s = .next t →
    ∃ u, exec i t = .next u ∧ u.status = t.status ∧ u.mem = t.mem ∧
      (t.status ≠ some .incompleteStream → u = t)

/-- R37: two operations on disjoint storage give the same statuses and leave the same storage in either serial order: every
byte, every buffer and every object, but for what the destinations of an incomplete decode hold (R74, R99). -/
def Obligations.DisjointTransactionsCommute : Prop :=
  ∀ (i j : Instr) (s t₁ t₂ : State), s.DisjointStorage i j → exec i s = .next t₁ → exec j s = .next t₂ →
    ∃ u w, exec j t₁ = .next u ∧ exec i t₂ = .next w ∧ u.status = t₂.status ∧ w.status = t₁.status ∧
      sameStorage ((u.setAside i t₁.status).setAside j t₂.status) ((w.setAside i t₁.status).setAside j t₂.status)

/-! ### Invariant and reset -/

/-- Every step keeps the invariant. -/
def Obligations.EveryStepKeepsInvariant : Prop :=
  ∀ s t : State, s.Inv → step s = .next t → t.Inv

/-- The invariant holds right after reset. -/
def Obligations.ResetMeetsInvariant : Prop := State.reset.Inv

/-- R21: right after reset no transaction is in flight and no status is pending; and an idle block does nothing. -/
def Obligations.ResetIsIdle : Prop :=
  State.reset.status = none ∧ State.reset.inputs = [] ∧ ∀ s : State, s.inputs = [] → step s = .next s

/-- R113: a reset of the idle block leaves no status pending and the host's storage as it was; and no operation can tell the
block after it from the block before it. -/
def Obligations.ResetGivesIdleBlock : Prop :=
  (∀ (s : State) (rest : List Input), s.inputs = .reset :: rest →
    ∃ t, step s = .next t ∧ t.status = none ∧ t.inputs = rest ∧ t.bufs = s.bufs ∧ t.mem = s.mem ∧
      t.counts = s.counts ∧ t.values = s.values ∧ t.draws = s.draws) ∧
  (∀ (i : Instr) (s : State), sameToHost (exec i s) (exec i s.quiet))

/-- R113: a reset in flight abandons the transaction: no status is reported, and only the storage behind its present write
references may change. -/
def Obligations.AbandonedTransactionReportsNothing : Prop :=
  ∀ (s u : State) (r : Request) (rest : List Input), s.inputs = .abandon r :: rest →
    exec (decode r) { s with inputs := rest } = .next u →
    ∃ t, step s = .next t ∧ t.status = none ∧ t.inputs = rest ∧ t.bufs = s.bufs ∧
      (∀ a, (∀ d, dstRef (decode r) = some d → a < d ∨ d + maxLen ≤ a) → t.mem.get a = s.mem.get a) ∧
      (∀ a, countRef (decode r) ≠ some a → t.countAt a = s.countAt a) ∧
      (∀ a, valueRef (decode r) ≠ some a → t.valueAt a = s.valueAt a) ∧
      t.counts.map CountObj.addr = s.counts.map CountObj.addr ∧ t.values.map ValueObj.addr = s.values.map ValueObj.addr

/-! ### The host between transactions -/

/-- A byte, a count or a value the host stores between transactions is what the state then holds, and nothing else changes;
so a later transaction sees it, as R36 says. That such a store is a step of the machine is the model's choice (log 20), and
so is that it leaves the last status in place (log 11). -/
def Obligations.HostStoresAreSeen : Prop :=
  (∀ (s : State) (a : Nat) (b : Byte) (rest : List Input), s.inputs = .hostByte a b :: rest → 0 < s.room a →
    s.isDevice a = false →
    ∃ t, step s = .next t ∧ t = { s with inputs := rest, mem := t.mem } ∧
      ∀ c, t.mem.get c = if c = a then b else s.mem.get c) ∧
  (∀ (s : State) (a k : Nat) (o : CountObj) (rest : List Input), s.inputs = .hostCount a k :: rest →
    s.countAt a = some o →
    ∃ t, step s = .next t ∧ t = { s with inputs := rest, counts := t.counts } ∧
      ∀ c, t.countVal c = if c = a then some k else s.countVal c) ∧
  (∀ (s : State) (a : Nat) (x : Word) (o : ValueObj) (rest : List Input), s.inputs = .hostValue a x :: rest →
    s.valueAt a = some o →
    ∃ t, step s = .next t ∧ t = { s with inputs := rest, values := t.values } ∧
      ∀ c, t.valueVal c = if c = a then some x else s.valueVal c)
end

