-- ==== Sys2Proof/Laws/Contract.lean ====
section
/-! SUPPORT. The contract the meanings check is the one the statements name. -/

namespace Sys2Proof.Machine

/-- A request that keeps the host's side of an encode is not refused for it. -/
theorem encodeContract_of_ready {s : State} {dst : Nat} {lenDst : Ref} {k : Nat} (h : EncodeReady s dst lenDst k) :
    s.encodeContract dst lenDst = none := by
  unfold State.encodeContract
  rw [if_neg (by simp [h.plain])]
  cases hl : lenDst with
  | none => rfl
  | some a =>
    obtain ⟨c, hc, ha⟩ := h.count a hl
    simp [hc, ha]

/-- A request not refused for the contract keeps it. -/
theorem encodeReady_of_contract {s : State} {dst : Nat} {lenDst : Ref} {k : Nat} (h : s.encodeContract dst lenDst = none)
    (hk : k ≤ s.room dst) : EncodeReady s dst lenDst k := by
  unfold State.encodeContract at h
  split at h
  · cases h
  · next hd =>
    refine ⟨by simpa using hd, hk, fun a ha => ?_⟩
    subst ha
    cases hc : s.countAt a with
    | none => simp [hc] at h
    | some c => exact ⟨c, rfl, by simpa [hc] using h⟩

/-- A request that keeps the host's side of a decode is not refused for it. -/
theorem decodeContract_of_ready {s : State} {src valDst : Nat} {consDst : Ref} (h : DecodeReady s src valDst consDst) :
    s.decodeContract src valDst consDst = none := by
  obtain ⟨x, hx, hax, hcount⟩ := h.value
  unfold State.decodeContract
  rw [if_neg (by simp [h.plain])]
  cases hl : consDst with
  | none => simp [hx, hax]
  | some a =>
    obtain ⟨c, hc, h1, h2⟩ := hcount a hl
    simp [hx, hax, hc, h1, h2]

/-- A request not refused for the contract keeps it. -/
theorem decodeReady_of_contract {s : State} {src valDst : Nat} {consDst : Ref}
    (h : s.decodeContract src valDst consDst = none) : DecodeReady s src valDst consDst := by
  unfold State.decodeContract at h
  split at h
  · cases h
  · next hd =>
    refine ⟨by simpa using hd, ?_⟩
    cases hx : s.valueAt valDst with
    | none => simp [hx] at h
    | some x =>
      simp only [hx] at h
      split at h
      · next hax =>
        refine ⟨x, rfl, hax, fun a ha => ?_⟩
        subst ha
        cases hc : s.countAt a with
        | none => simp [hc] at h
        | some c => exact ⟨c, rfl, by simpa [hc] using h⟩
      · cases h

end Sys2Proof.Machine
end

