-- ==== Sys2Proof/Laws/Memory.lean ====
section
/-! SUPPORT. The laws of memory: read after write, what a write leaves alone, the canonical form and that it decides equality. -/

namespace Sys2Proof.Machine

@[simp] theorem Memory.get_nil (a : Nat) : Memory.get [] a = Memory.unlisted := rfl

theorem Memory.get_of_not_listed (m : Memory) (a : Nat) (h : ∀ c ∈ m, c.1 ≠ a) : m.get a = Memory.unlisted := by
  induction m with
  | nil => rfl
  | cons c t ih =>
    have hc : c.1 ≠ a := h c (by simp)
    simp only [Memory.get, if_neg hc]
    exact ih fun d hd => h d (by simp [hd])

theorem Memory.erase_not_listed (m : Memory) (a : Nat) : ∀ c ∈ m.erase a, c.1 ≠ a := by
  intro c hc
  simpa using (List.mem_filter.1 hc).2

theorem Memory.get_erase (m : Memory) (a b : Nat) :
    (m.erase a).get b = if b = a then Memory.unlisted else m.get b := by
  induction m with
  | nil => simp [Memory.erase]
  | cons c t ih =>
    have step : Memory.erase (c :: t) a = if c.1 ≠ a then c :: Memory.erase t a else Memory.erase t a := by
      simp [Memory.erase, List.filter_cons]
    rw [step]
    by_cases hc : c.1 = a <;> by_cases hb : c.1 = b <;> by_cases hab : b = a <;> simp_all [Memory.get]

theorem Memory.get_insert (m : Memory) (a b : Nat) (x : Byte) (h : ∀ c ∈ m, c.1 ≠ a) :
    (m.insert a x).get b = if b = a then x else m.get b := by
  induction m with
  | nil => simp [Memory.insert, Memory.get, eq_comm]
  | cons c t ih =>
    have hc : c.1 ≠ a := h c (by simp)
    have ih := ih fun d hd => h d (by simp [hd])
    by_cases hlt : a < c.1
    · simp only [Memory.insert, if_pos hlt, Memory.get, eq_comm]
    · simp only [Memory.insert, if_neg hlt, Memory.get, ih]
      by_cases hb : c.1 = b
      · have : b ≠ a := by omega
        simp [hb, this]
      · simp [hb]

/-- A read after a write: the byte written at its address, every other address as before. -/
theorem Memory.get_set (m : Memory) (a b : Nat) (x : Byte) :
    (m.set a x).get b = if b = a then x else m.get b := by
  unfold Memory.set
  by_cases hx : x = Memory.unlisted
  · rw [if_pos hx, Memory.get_erase, hx]
  · rw [if_neg hx, Memory.get_insert _ _ _ _ (Memory.erase_not_listed m a), Memory.get_erase]
    by_cases hb : b = a <;> simp [hb]

theorem Memory.get_set_same (m : Memory) (a : Nat) (x : Byte) : (m.set a x).get a = x := by simp [Memory.get_set]

theorem Memory.get_set_other (m : Memory) {a b : Nat} (x : Byte) (h : b ≠ a) : (m.set a x).get b = m.get b := by
  simp [Memory.get_set, h]

theorem Memory.mem_insert (m : Memory) (a : Nat) (x : Byte) (c : Host.Cell) :
    c ∈ m.insert a x ↔ c = (a, x) ∨ c ∈ m := by
  induction m with
  | nil => simp [Memory.insert]
  | cons d t ih =>
    by_cases hlt : a < d.1
    · simp [Memory.insert, hlt]
    · simp only [Memory.insert, if_neg hlt, List.mem_cons, ih]
      tauto

/-- A write lists no address but its own. -/
theorem Memory.mem_set {m : Memory} {a : Nat} {x : Byte} {c : Host.Cell} (h : c ∈ m.set a x) : c.1 = a ∨ c ∈ m := by
  unfold Memory.set at h
  split at h
  · exact .inr (List.mem_of_mem_filter h)
  · rcases (Memory.mem_insert _ _ _ _).1 h with rfl | h
    · exact .inl rfl
    · exact .inr (List.mem_of_mem_filter h)

theorem Memory.wf_cons {k : Nat} {b : Byte} {t : Memory} :
    Memory.wf ((k, b) :: t) = true ↔ b ≠ Memory.unlisted ∧ (∀ c ∈ t, k < c.1) ∧ t.wf = true := by
  simp [Memory.wf, Bool.and_eq_true, and_assoc]

theorem Memory.wf_erase {m : Memory} (a : Nat) (h : m.wf = true) : (m.erase a).wf = true := by
  induction m with
  | nil => simpa [Memory.erase] using h
  | cons c t ih =>
    obtain ⟨hb, hlt, ht⟩ := Memory.wf_cons.1 h
    have step : Memory.erase (c :: t) a = if c.1 ≠ a then c :: Memory.erase t a else Memory.erase t a := by
      simp [Memory.erase, List.filter_cons]
    rw [step]
    split
    · exact Memory.wf_cons.2 ⟨hb, fun d hd => hlt d (List.mem_of_mem_filter hd), ih ht⟩
    · exact ih ht

theorem Memory.wf_insert {m : Memory} {a : Nat} {x : Byte} (hx : x ≠ Memory.unlisted) (hm : ∀ c ∈ m, c.1 ≠ a)
    (h : m.wf = true) : (m.insert a x).wf = true := by
  induction m with
  | nil => exact Memory.wf_cons.2 ⟨hx, by simp, rfl⟩
  | cons c t ih =>
    obtain ⟨hb, hlt, ht⟩ := Memory.wf_cons.1 h
    have hc : c.1 ≠ a := hm c (by simp)
    by_cases hac : a < c.1
    · simp only [Memory.insert, if_pos hac]
      refine Memory.wf_cons.2 ⟨hx, ?_, h⟩
      intro d hd
      rcases List.mem_cons.1 hd with rfl | hd
      · exact hac
      · exact lt_trans hac (hlt d hd)
    · simp only [Memory.insert, if_neg hac]
      refine Memory.wf_cons.2 ⟨hb, ?_, ih (fun d hd => hm d (by simp [hd])) ht⟩
      intro d hd
      rcases (Memory.mem_insert _ _ _ _).1 hd with rfl | hd
      · exact lt_of_le_of_ne (not_lt.1 hac) hc
      · exact hlt d hd

/-- A write keeps the canonical form. -/
theorem Memory.wf_set {m : Memory} (a : Nat) (x : Byte) (h : m.wf = true) : (m.set a x).wf = true := by
  unfold Memory.set
  split
  · exact Memory.wf_erase a h
  · exact Memory.wf_insert ‹_› (Memory.erase_not_listed m a) (Memory.wf_erase a h)

theorem Memory.get_eq_unlisted_of_lt {m : Memory} {a : Nat} (h : ∀ c ∈ m, a < c.1) : m.get a = Memory.unlisted :=
  Memory.get_of_not_listed m a fun c hc => Nat.ne_of_gt (h c hc)

/-- Canonical memories that read alike are equal data. -/
theorem Memory.ext_of_wf {m p : Memory} (hm : m.wf = true) (hp : p.wf = true) (h : ∀ a, m.get a = p.get a) : m = p := by
  induction m generalizing p with
  | nil =>
    cases p with
    | nil => rfl
    | cons d u =>
      obtain ⟨hb, -, -⟩ := Memory.wf_cons.1 hp
      have := h d.1
      simp [Memory.get] at this
      exact absurd this.symm hb
  | cons c t ih =>
    obtain ⟨hcb, hct, ht⟩ := Memory.wf_cons.1 hm
    cases p with
    | nil =>
      have := h c.1
      simp [Memory.get] at this
      exact absurd this hcb
    | cons d u =>
      obtain ⟨hdb, hdu, hu⟩ := Memory.wf_cons.1 hp
      have hkey : c.1 = d.1 := by
        rcases Nat.lt_trichotomy c.1 d.1 with hlt | heq | hgt
        · have h1 := h c.1
          rw [Memory.get_eq_unlisted_of_lt (m := d :: u)] at h1
          · simp [Memory.get] at h1
            exact absurd h1 hcb
          · intro e he
            rcases List.mem_cons.1 he with rfl | he
            · exact hlt
            · exact lt_trans hlt (hdu e he)
        · exact heq
        · have h1 := h d.1
          rw [Memory.get_eq_unlisted_of_lt (m := c :: t)] at h1
          · simp [Memory.get] at h1
            exact absurd h1.symm hdb
          · intro e he
            rcases List.mem_cons.1 he with rfl | he
            · exact hgt
            · exact lt_trans hgt (hct e he)
      have hbyte : c.2 = d.2 := by
        have h1 := h c.1
        simpa [Memory.get, hkey] using h1
      have htail : t = u := by
        refine ih ht hu fun a => ?_
        by_cases ha : a = c.1
        · rw [ha, Memory.get_eq_unlisted_of_lt hct, Memory.get_eq_unlisted_of_lt (hkey ▸ hdu)]
        · have h1 := h a
          have hc : c.1 ≠ a := fun e => ha e.symm
          have hd : d.1 ≠ a := hkey ▸ hc
          simpa only [Memory.get, if_neg hc, if_neg hd] using h1
      rw [htail, Prod.ext hkey hbyte]

/-! ### A run of bytes written from an address on -/

/-- Write a list of bytes at consecutive addresses. -/
def Memory.write : Memory → Nat → List Byte → Memory
  | m, _, [] => m
  | m, a, b :: t => Memory.write (m.set a b) (a + 1) t

theorem Memory.write_append (m : Memory) (a : Nat) (bs cs : List Byte) :
    m.write a (bs ++ cs) = (m.write a bs).write (a + bs.length) cs := by
  induction bs generalizing m a with
  | nil => rfl
  | cons b t ih => simp [Memory.write, ih, Nat.add_assoc, Nat.add_comm 1]

theorem Memory.get_write (m : Memory) (a c : Nat) (bs : List Byte) :
    (m.write a bs).get c = if a ≤ c ∧ c < a + bs.length then bs.getD (c - a) Memory.unlisted else m.get c := by
  induction bs generalizing m a with
  | nil =>
    have : ¬ (a ≤ c ∧ c < a + 0) := by omega
    simp only [Memory.write, List.length_nil, if_neg this]
  | cons b t ih =>
    rw [Memory.write, ih, Memory.get_set]
    by_cases h1 : c = a
    · subst h1
      simp
    · by_cases h2 : a + 1 ≤ c ∧ c < a + 1 + t.length
      · have h3 : a ≤ c ∧ c < a + (b :: t).length := by simp; omega
        have h4 : c - a = (c - (a + 1)) + 1 := by omega
        rw [if_pos h2, if_pos h3]
        simp [h4]
      · have h3 : ¬ (a ≤ c ∧ c < a + (b :: t).length) := by simp; omega
        rw [if_neg h2, if_neg h3, if_neg h1]

theorem Memory.wf_write {m : Memory} (a : Nat) (bs : List Byte) (h : m.wf = true) : (m.write a bs).wf = true := by
  induction bs generalizing m a with
  | nil => exact h
  | cons b t ih => exact ih (a + 1) (Memory.wf_set a b h)

theorem Memory.mem_write {m : Memory} {a : Nat} {bs : List Byte} {c : Host.Cell} (h : c ∈ m.write a bs) :
    (a ≤ c.1 ∧ c.1 < a + bs.length) ∨ c ∈ m := by
  induction bs generalizing m a with
  | nil => exact .inr h
  | cons b t ih =>
    rcases ih h with h1 | h1
    · left
      simp
      omega
    · rcases Memory.mem_set h1 with h2 | h2
      · left
        simp
        omega
      · exact .inr h2

end Sys2Proof.Machine
end

