-- ==== Sys2Proof/Laws/State.lean ====
section
/-! SUPPORT. What each named update of the state does to each field. -/

namespace Sys2Proof.Machine

variable (s : State)

/-! `State.setByte` -/
@[simp] theorem State.setByte_v (a : Nat) (b : Byte) : (s.setByte a b).v = s.v := rfl
@[simp] theorem State.setByte_n (a : Nat) (b : Byte) : (s.setByte a b).n = s.n := rfl
@[simp] theorem State.setByte_acc (a : Nat) (b : Byte) : (s.setByte a b).acc = s.acc := rfl
@[simp] theorem State.setByte_shift (a : Nat) (b : Byte) : (s.setByte a b).shift = s.shift := rfl
@[simp] theorem State.setByte_i (a : Nat) (b : Byte) : (s.setByte a b).i = s.i := rfl
@[simp] theorem State.setByte_status (a : Nat) (b : Byte) : (s.setByte a b).status = s.status := rfl
@[simp] theorem State.setByte_inputs (a : Nat) (b : Byte) : (s.setByte a b).inputs = s.inputs := rfl
@[simp] theorem State.setByte_bufs (a : Nat) (b : Byte) : (s.setByte a b).bufs = s.bufs := rfl
@[simp] theorem State.setByte_mem (a : Nat) (b : Byte) : (s.setByte a b).mem = s.mem.set a b := rfl
@[simp] theorem State.setByte_counts (a : Nat) (b : Byte) : (s.setByte a b).counts = s.counts := rfl
@[simp] theorem State.setByte_values (a : Nat) (b : Byte) : (s.setByte a b).values = s.values := rfl
@[simp] theorem State.setByte_draws (a : Nat) (b : Byte) : (s.setByte a b).draws = s.draws := rfl

/-! `State.report` -/
@[simp] theorem State.report_v (st : Status) : (s.report st).v = s.v := rfl
@[simp] theorem State.report_n (st : Status) : (s.report st).n = s.n := rfl
@[simp] theorem State.report_acc (st : Status) : (s.report st).acc = s.acc := rfl
@[simp] theorem State.report_shift (st : Status) : (s.report st).shift = s.shift := rfl
@[simp] theorem State.report_i (st : Status) : (s.report st).i = s.i := rfl
@[simp] theorem State.report_status (st : Status) : (s.report st).status = some st := rfl
@[simp] theorem State.report_inputs (st : Status) : (s.report st).inputs = s.inputs := rfl
@[simp] theorem State.report_bufs (st : Status) : (s.report st).bufs = s.bufs := rfl
@[simp] theorem State.report_mem (st : Status) : (s.report st).mem = s.mem := rfl
@[simp] theorem State.report_counts (st : Status) : (s.report st).counts = s.counts := rfl
@[simp] theorem State.report_values (st : Status) : (s.report st).values = s.values := rfl
@[simp] theorem State.report_draws (st : Status) : (s.report st).draws = s.draws := rfl

/-! `State.startEncode` -/
@[simp] theorem State.startEncode_v (x : Word) : (s.startEncode x).v = x := rfl
@[simp] theorem State.startEncode_n (x : Word) : (s.startEncode x).n = 0#4 := rfl
@[simp] theorem State.startEncode_acc (x : Word) : (s.startEncode x).acc = s.acc := rfl
@[simp] theorem State.startEncode_shift (x : Word) : (s.startEncode x).shift = s.shift := rfl
@[simp] theorem State.startEncode_i (x : Word) : (s.startEncode x).i = s.i := rfl
@[simp] theorem State.startEncode_status (x : Word) : (s.startEncode x).status = s.status := rfl
@[simp] theorem State.startEncode_inputs (x : Word) : (s.startEncode x).inputs = s.inputs := rfl
@[simp] theorem State.startEncode_bufs (x : Word) : (s.startEncode x).bufs = s.bufs := rfl
@[simp] theorem State.startEncode_mem (x : Word) : (s.startEncode x).mem = s.mem := rfl
@[simp] theorem State.startEncode_counts (x : Word) : (s.startEncode x).counts = s.counts := rfl
@[simp] theorem State.startEncode_values (x : Word) : (s.startEncode x).values = s.values := rfl
@[simp] theorem State.startEncode_draws (x : Word) : (s.startEncode x).draws = s.draws := rfl

/-! `State.shiftOut` -/
@[simp] theorem State.shiftOut_v : (s.shiftOut).v = s.v >>> groupBits := rfl
@[simp] theorem State.shiftOut_n : (s.shiftOut).n = s.n + 1#4 := rfl
@[simp] theorem State.shiftOut_acc : (s.shiftOut).acc = s.acc := rfl
@[simp] theorem State.shiftOut_shift : (s.shiftOut).shift = s.shift := rfl
@[simp] theorem State.shiftOut_i : (s.shiftOut).i = s.i := rfl
@[simp] theorem State.shiftOut_status : (s.shiftOut).status = s.status := rfl
@[simp] theorem State.shiftOut_inputs : (s.shiftOut).inputs = s.inputs := rfl
@[simp] theorem State.shiftOut_bufs : (s.shiftOut).bufs = s.bufs := rfl
@[simp] theorem State.shiftOut_mem : (s.shiftOut).mem = s.mem := rfl
@[simp] theorem State.shiftOut_counts : (s.shiftOut).counts = s.counts := rfl
@[simp] theorem State.shiftOut_values : (s.shiftOut).values = s.values := rfl
@[simp] theorem State.shiftOut_draws : (s.shiftOut).draws = s.draws := rfl

/-! `State.countFinal` -/
@[simp] theorem State.countFinal_v : (s.countFinal).v = s.v := rfl
@[simp] theorem State.countFinal_n : (s.countFinal).n = s.n + 1#4 := rfl
@[simp] theorem State.countFinal_acc : (s.countFinal).acc = s.acc := rfl
@[simp] theorem State.countFinal_shift : (s.countFinal).shift = s.shift := rfl
@[simp] theorem State.countFinal_i : (s.countFinal).i = s.i := rfl
@[simp] theorem State.countFinal_status : (s.countFinal).status = s.status := rfl
@[simp] theorem State.countFinal_inputs : (s.countFinal).inputs = s.inputs := rfl
@[simp] theorem State.countFinal_bufs : (s.countFinal).bufs = s.bufs := rfl
@[simp] theorem State.countFinal_mem : (s.countFinal).mem = s.mem := rfl
@[simp] theorem State.countFinal_counts : (s.countFinal).counts = s.counts := rfl
@[simp] theorem State.countFinal_values : (s.countFinal).values = s.values := rfl
@[simp] theorem State.countFinal_draws : (s.countFinal).draws = s.draws := rfl

/-! `State.startDecode` -/
@[simp] theorem State.startDecode_v : (s.startDecode).v = s.v := rfl
@[simp] theorem State.startDecode_n : (s.startDecode).n = s.n := rfl
@[simp] theorem State.startDecode_acc : (s.startDecode).acc = 0#64 := rfl
@[simp] theorem State.startDecode_shift : (s.startDecode).shift = 0#7 := rfl
@[simp] theorem State.startDecode_i : (s.startDecode).i = 0#4 := rfl
@[simp] theorem State.startDecode_status : (s.startDecode).status = s.status := rfl
@[simp] theorem State.startDecode_inputs : (s.startDecode).inputs = s.inputs := rfl
@[simp] theorem State.startDecode_bufs : (s.startDecode).bufs = s.bufs := rfl
@[simp] theorem State.startDecode_mem : (s.startDecode).mem = s.mem := rfl
@[simp] theorem State.startDecode_counts : (s.startDecode).counts = s.counts := rfl
@[simp] theorem State.startDecode_values : (s.startDecode).values = s.values := rfl
@[simp] theorem State.startDecode_draws : (s.startDecode).draws = s.draws := rfl

/-! `State.feed` -/
@[simp] theorem State.feed_v (b : Byte) : (s.feed b).v = s.v := rfl
@[simp] theorem State.feed_n (b : Byte) : (s.feed b).n = s.n := rfl
@[simp] theorem State.feed_acc (b : Byte) : (s.feed b).acc = s.acc ||| shl64 (dataBits b) s.shift.toNat := rfl
@[simp] theorem State.feed_shift (b : Byte) : (s.feed b).shift = s.shift + 7#7 := rfl
@[simp] theorem State.feed_i (b : Byte) : (s.feed b).i = s.i + 1#4 := rfl
@[simp] theorem State.feed_status (b : Byte) : (s.feed b).status = s.status := rfl
@[simp] theorem State.feed_inputs (b : Byte) : (s.feed b).inputs = s.inputs := rfl
@[simp] theorem State.feed_bufs (b : Byte) : (s.feed b).bufs = s.bufs := rfl
@[simp] theorem State.feed_mem (b : Byte) : (s.feed b).mem = s.mem := rfl
@[simp] theorem State.feed_counts (b : Byte) : (s.feed b).counts = s.counts := rfl
@[simp] theorem State.feed_values (b : Byte) : (s.feed b).values = s.values := rfl
@[simp] theorem State.feed_draws (b : Byte) : (s.feed b).draws = s.draws := rfl

/-! `State.quiet` -/
@[simp] theorem State.quiet_v : (s.quiet).v = 0#64 := rfl
@[simp] theorem State.quiet_n : (s.quiet).n = 0#4 := rfl
@[simp] theorem State.quiet_acc : (s.quiet).acc = 0#64 := rfl
@[simp] theorem State.quiet_shift : (s.quiet).shift = 0#7 := rfl
@[simp] theorem State.quiet_i : (s.quiet).i = 0#4 := rfl
@[simp] theorem State.quiet_status : (s.quiet).status = none := rfl
@[simp] theorem State.quiet_inputs : (s.quiet).inputs = s.inputs := rfl
@[simp] theorem State.quiet_bufs : (s.quiet).bufs = s.bufs := rfl
@[simp] theorem State.quiet_mem : (s.quiet).mem = s.mem := rfl
@[simp] theorem State.quiet_counts : (s.quiet).counts = s.counts := rfl
@[simp] theorem State.quiet_values : (s.quiet).values = s.values := rfl
@[simp] theorem State.quiet_draws : (s.quiet).draws = s.draws := rfl

/-! `State.updateCount` -/
@[simp] theorem State.updateCount_v (r : Ref) (f : Nat → Nat) : (s.updateCount r f).v = s.v := by cases r <;> rfl
@[simp] theorem State.updateCount_n (r : Ref) (f : Nat → Nat) : (s.updateCount r f).n = s.n := by cases r <;> rfl
@[simp] theorem State.updateCount_acc (r : Ref) (f : Nat → Nat) : (s.updateCount r f).acc = s.acc := by cases r <;> rfl
@[simp] theorem State.updateCount_shift (r : Ref) (f : Nat → Nat) : (s.updateCount r f).shift = s.shift := by cases r <;> rfl
@[simp] theorem State.updateCount_i (r : Ref) (f : Nat → Nat) : (s.updateCount r f).i = s.i := by cases r <;> rfl
@[simp] theorem State.updateCount_status (r : Ref) (f : Nat → Nat) : (s.updateCount r f).status = s.status := by cases r <;> rfl
@[simp] theorem State.updateCount_inputs (r : Ref) (f : Nat → Nat) : (s.updateCount r f).inputs = s.inputs := by cases r <;> rfl
@[simp] theorem State.updateCount_bufs (r : Ref) (f : Nat → Nat) : (s.updateCount r f).bufs = s.bufs := by cases r <;> rfl
@[simp] theorem State.updateCount_mem (r : Ref) (f : Nat → Nat) : (s.updateCount r f).mem = s.mem := by cases r <;> rfl
@[simp] theorem State.updateCount_values (r : Ref) (f : Nat → Nat) : (s.updateCount r f).values = s.values := by cases r <;> rfl
@[simp] theorem State.updateCount_draws (r : Ref) (f : Nat → Nat) : (s.updateCount r f).draws = s.draws := by cases r <;> rfl

/-! `State.updateValue` -/
@[simp] theorem State.updateValue_v (r : Ref) (f : Word → Word) : (s.updateValue r f).v = s.v := by cases r <;> rfl
@[simp] theorem State.updateValue_n (r : Ref) (f : Word → Word) : (s.updateValue r f).n = s.n := by cases r <;> rfl
@[simp] theorem State.updateValue_acc (r : Ref) (f : Word → Word) : (s.updateValue r f).acc = s.acc := by cases r <;> rfl
@[simp] theorem State.updateValue_shift (r : Ref) (f : Word → Word) : (s.updateValue r f).shift = s.shift := by cases r <;> rfl
@[simp] theorem State.updateValue_i (r : Ref) (f : Word → Word) : (s.updateValue r f).i = s.i := by cases r <;> rfl
@[simp] theorem State.updateValue_status (r : Ref) (f : Word → Word) : (s.updateValue r f).status = s.status := by cases r <;> rfl
@[simp] theorem State.updateValue_inputs (r : Ref) (f : Word → Word) : (s.updateValue r f).inputs = s.inputs := by cases r <;> rfl
@[simp] theorem State.updateValue_bufs (r : Ref) (f : Word → Word) : (s.updateValue r f).bufs = s.bufs := by cases r <;> rfl
@[simp] theorem State.updateValue_mem (r : Ref) (f : Word → Word) : (s.updateValue r f).mem = s.mem := by cases r <;> rfl
@[simp] theorem State.updateValue_counts (r : Ref) (f : Word → Word) : (s.updateValue r f).counts = s.counts := by cases r <;> rfl
@[simp] theorem State.updateValue_draws (r : Ref) (f : Word → Word) : (s.updateValue r f).draws = s.draws := by cases r <;> rfl

/-! `State.storeCount` -/
@[simp] theorem State.storeCount_v (r : Ref) (x : Nat) : (s.storeCount r x).v = s.v := by cases r <;> rfl
@[simp] theorem State.storeCount_n (r : Ref) (x : Nat) : (s.storeCount r x).n = s.n := by cases r <;> rfl
@[simp] theorem State.storeCount_acc (r : Ref) (x : Nat) : (s.storeCount r x).acc = s.acc := by cases r <;> rfl
@[simp] theorem State.storeCount_shift (r : Ref) (x : Nat) : (s.storeCount r x).shift = s.shift := by cases r <;> rfl
@[simp] theorem State.storeCount_i (r : Ref) (x : Nat) : (s.storeCount r x).i = s.i := by cases r <;> rfl
@[simp] theorem State.storeCount_status (r : Ref) (x : Nat) : (s.storeCount r x).status = s.status := by cases r <;> rfl
@[simp] theorem State.storeCount_inputs (r : Ref) (x : Nat) : (s.storeCount r x).inputs = s.inputs := by cases r <;> rfl
@[simp] theorem State.storeCount_bufs (r : Ref) (x : Nat) : (s.storeCount r x).bufs = s.bufs := by cases r <;> rfl
@[simp] theorem State.storeCount_mem (r : Ref) (x : Nat) : (s.storeCount r x).mem = s.mem := by cases r <;> rfl
@[simp] theorem State.storeCount_values (r : Ref) (x : Nat) : (s.storeCount r x).values = s.values := by cases r <;> rfl
@[simp] theorem State.storeCount_draws (r : Ref) (x : Nat) : (s.storeCount r x).draws = s.draws := by cases r <;> rfl

/-! `State.storeValue` -/
@[simp] theorem State.storeValue_v (r : Ref) (x : Word) : (s.storeValue r x).v = s.v := by cases r <;> rfl
@[simp] theorem State.storeValue_n (r : Ref) (x : Word) : (s.storeValue r x).n = s.n := by cases r <;> rfl
@[simp] theorem State.storeValue_acc (r : Ref) (x : Word) : (s.storeValue r x).acc = s.acc := by cases r <;> rfl
@[simp] theorem State.storeValue_shift (r : Ref) (x : Word) : (s.storeValue r x).shift = s.shift := by cases r <;> rfl
@[simp] theorem State.storeValue_i (r : Ref) (x : Word) : (s.storeValue r x).i = s.i := by cases r <;> rfl
@[simp] theorem State.storeValue_status (r : Ref) (x : Word) : (s.storeValue r x).status = s.status := by cases r <;> rfl
@[simp] theorem State.storeValue_inputs (r : Ref) (x : Word) : (s.storeValue r x).inputs = s.inputs := by cases r <;> rfl
@[simp] theorem State.storeValue_bufs (r : Ref) (x : Word) : (s.storeValue r x).bufs = s.bufs := by cases r <;> rfl
@[simp] theorem State.storeValue_mem (r : Ref) (x : Word) : (s.storeValue r x).mem = s.mem := by cases r <;> rfl
@[simp] theorem State.storeValue_counts (r : Ref) (x : Word) : (s.storeValue r x).counts = s.counts := by cases r <;> rfl
@[simp] theorem State.storeValue_draws (r : Ref) (x : Word) : (s.storeValue r x).draws = s.draws := by cases r <;> rfl

/-! `State.freeOutputs` -/
@[simp] theorem State.freeOutputs_v (vd cd : Ref) : (s.freeOutputs vd cd).v = s.v := by cases vd <;> cases cd <;> rfl
@[simp] theorem State.freeOutputs_n (vd cd : Ref) : (s.freeOutputs vd cd).n = s.n := by cases vd <;> cases cd <;> rfl
@[simp] theorem State.freeOutputs_acc (vd cd : Ref) : (s.freeOutputs vd cd).acc = s.acc := by cases vd <;> cases cd <;> rfl
@[simp] theorem State.freeOutputs_shift (vd cd : Ref) : (s.freeOutputs vd cd).shift = s.shift := by cases vd <;> cases cd <;> rfl
@[simp] theorem State.freeOutputs_i (vd cd : Ref) : (s.freeOutputs vd cd).i = s.i := by cases vd <;> cases cd <;> rfl
@[simp] theorem State.freeOutputs_status (vd cd : Ref) : (s.freeOutputs vd cd).status = s.status := by cases vd <;> cases cd <;> rfl
@[simp] theorem State.freeOutputs_inputs (vd cd : Ref) : (s.freeOutputs vd cd).inputs = s.inputs := by cases vd <;> cases cd <;> rfl
@[simp] theorem State.freeOutputs_bufs (vd cd : Ref) : (s.freeOutputs vd cd).bufs = s.bufs := by cases vd <;> cases cd <;> rfl
@[simp] theorem State.freeOutputs_mem (vd cd : Ref) : (s.freeOutputs vd cd).mem = s.mem := by cases vd <;> cases cd <;> rfl
@[simp] theorem State.freeOutputs_draws (vd cd : Ref) : (s.freeOutputs vd cd).draws = s.draws + 1 := rfl
theorem State.freeOutputs_values (vd cd : Ref) :
    (s.freeOutputs vd cd).values = (s.updateValue vd fun old => Config.freeValue s.draws old s.acc).values := by
  cases cd <;> rfl
theorem State.freeOutputs_counts (vd cd : Ref) :
    (s.freeOutputs vd cd).counts = (s.updateCount cd fun old => Config.freeCount s.draws old s.i.toNat).counts := by
  cases vd <;> cases cd <;> rfl

/-! `State.setAside` -/
@[simp] theorem State.setAside_v (i : Instr) (st : Option Status) : (s.setAside i st).v = s.v := by
  unfold State.setAside; split <;> simp
@[simp] theorem State.setAside_n (i : Instr) (st : Option Status) : (s.setAside i st).n = s.n := by
  unfold State.setAside; split <;> simp
@[simp] theorem State.setAside_acc (i : Instr) (st : Option Status) : (s.setAside i st).acc = s.acc := by
  unfold State.setAside; split <;> simp
@[simp] theorem State.setAside_shift (i : Instr) (st : Option Status) : (s.setAside i st).shift = s.shift := by
  unfold State.setAside; split <;> simp
@[simp] theorem State.setAside_i (i : Instr) (st : Option Status) : (s.setAside i st).i = s.i := by
  unfold State.setAside; split <;> simp
@[simp] theorem State.setAside_status (i : Instr) (st : Option Status) : (s.setAside i st).status = s.status := by
  unfold State.setAside; split <;> simp
@[simp] theorem State.setAside_inputs (i : Instr) (st : Option Status) : (s.setAside i st).inputs = s.inputs := by
  unfold State.setAside; split <;> simp
@[simp] theorem State.setAside_bufs (i : Instr) (st : Option Status) : (s.setAside i st).bufs = s.bufs := by
  unfold State.setAside; split <;> simp
@[simp] theorem State.setAside_mem (i : Instr) (st : Option Status) : (s.setAside i st).mem = s.mem := by
  unfold State.setAside; split <;> simp
@[simp] theorem State.setAside_draws (i : Instr) (st : Option Status) : (s.setAside i st).draws = s.draws := by
  unfold State.setAside; split <;> simp
theorem State.setAside_counts (i : Instr) (st : Option Status) : (s.setAside i st).counts =
    (s.updateCount (if st = some .incompleteStream then countRef i else none) fun _ => 0).counts := by
  unfold State.setAside
  split <;> simp [State.updateCount]
theorem State.setAside_values (i : Instr) (st : Option Status) : (s.setAside i st).values =
    (s.updateValue (if st = some .incompleteStream then valueRef i else none) fun _ => 0#64).values := by
  unfold State.setAside
  split
  · cases valueRef i <;> cases countRef i <;> rfl
  · rfl
/-- After a status that leaves nothing unspecified, nothing is put aside. -/
theorem State.setAside_of_specified (i : Instr) {st : Option Status} (h : st ≠ some .incompleteStream) :
    s.setAside i st = s := by
  simp [State.setAside, h]

end Sys2Proof.Machine
end

