-- ==== Sys2Proof/Laws/Storage.lean ====
section
/-! SUPPORT. The host's buffers and scalar objects under the named updates, and what one byte access can do. -/

namespace Sys2Proof.Machine

/-! ### Buffers: they depend on `bufs` alone -/

theorem State.bufferAt_congr {s t : State} (h : t.bufs = s.bufs) (a : Nat) : t.bufferAt a = s.bufferAt a := by
  simp [State.bufferAt, h]

theorem State.room_congr {s t : State} (h : t.bufs = s.bufs) (a : Nat) : t.room a = s.room a := by
  simp [State.room, State.bufferAt_congr h]

theorem State.isDevice_congr {s t : State} (h : t.bufs = s.bufs) (a : Nat) : t.isDevice a = s.isDevice a := by
  simp [State.isDevice, State.bufferAt_congr h]

theorem State.bufferSpan_congr {s t : State} (h : t.bufs = s.bufs) (a : Nat) : t.bufferSpan a = s.bufferSpan a := by
  simp [State.bufferSpan, State.room_congr h]

theorem State.readByte_congr {s t : State} (hb : t.bufs = s.bufs) (hm : t.mem = s.mem) (a : Nat) (k : Nat) :
    t.readByte a k = s.readByte a k := by
  simp [State.readByte, State.room_congr hb, hm]

/-! The buffers under each named update. -/

@[simp] theorem State.room_setByte (s : State) (x : Nat) (b : Byte) (a : Nat) : (s.setByte x b).room a = s.room a := State.room_congr (by simp) a
@[simp] theorem State.isDevice_setByte (s : State) (x : Nat) (b : Byte) (a : Nat) : (s.setByte x b).isDevice a = s.isDevice a := State.isDevice_congr (by simp) a
@[simp] theorem State.bufferSpan_setByte (s : State) (x : Nat) (b : Byte) (a : Nat) : (s.setByte x b).bufferSpan a = s.bufferSpan a := State.bufferSpan_congr (by simp) a
@[simp] theorem State.room_report (s : State) (st : Status) (a : Nat) : (s.report st).room a = s.room a := State.room_congr (by simp) a
@[simp] theorem State.isDevice_report (s : State) (st : Status) (a : Nat) : (s.report st).isDevice a = s.isDevice a := State.isDevice_congr (by simp) a
@[simp] theorem State.bufferSpan_report (s : State) (st : Status) (a : Nat) : (s.report st).bufferSpan a = s.bufferSpan a := State.bufferSpan_congr (by simp) a
@[simp] theorem State.room_startEncode (s : State) (x : Word) (a : Nat) : (s.startEncode x).room a = s.room a := State.room_congr (by simp) a
@[simp] theorem State.isDevice_startEncode (s : State) (x : Word) (a : Nat) : (s.startEncode x).isDevice a = s.isDevice a := State.isDevice_congr (by simp) a
@[simp] theorem State.bufferSpan_startEncode (s : State) (x : Word) (a : Nat) : (s.startEncode x).bufferSpan a = s.bufferSpan a := State.bufferSpan_congr (by simp) a
@[simp] theorem State.room_shiftOut (s : State) (a : Nat) : (s.shiftOut).room a = s.room a := State.room_congr (by simp) a
@[simp] theorem State.isDevice_shiftOut (s : State) (a : Nat) : (s.shiftOut).isDevice a = s.isDevice a := State.isDevice_congr (by simp) a
@[simp] theorem State.bufferSpan_shiftOut (s : State) (a : Nat) : (s.shiftOut).bufferSpan a = s.bufferSpan a := State.bufferSpan_congr (by simp) a
@[simp] theorem State.room_countFinal (s : State) (a : Nat) : (s.countFinal).room a = s.room a := State.room_congr (by simp) a
@[simp] theorem State.isDevice_countFinal (s : State) (a : Nat) : (s.countFinal).isDevice a = s.isDevice a := State.isDevice_congr (by simp) a
@[simp] theorem State.bufferSpan_countFinal (s : State) (a : Nat) : (s.countFinal).bufferSpan a = s.bufferSpan a := State.bufferSpan_congr (by simp) a
@[simp] theorem State.room_startDecode (s : State) (a : Nat) : (s.startDecode).room a = s.room a := State.room_congr (by simp) a
@[simp] theorem State.isDevice_startDecode (s : State) (a : Nat) : (s.startDecode).isDevice a = s.isDevice a := State.isDevice_congr (by simp) a
@[simp] theorem State.bufferSpan_startDecode (s : State) (a : Nat) : (s.startDecode).bufferSpan a = s.bufferSpan a := State.bufferSpan_congr (by simp) a
@[simp] theorem State.room_feed (s : State) (b : Byte) (a : Nat) : (s.feed b).room a = s.room a := State.room_congr (by simp) a
@[simp] theorem State.isDevice_feed (s : State) (b : Byte) (a : Nat) : (s.feed b).isDevice a = s.isDevice a := State.isDevice_congr (by simp) a
@[simp] theorem State.bufferSpan_feed (s : State) (b : Byte) (a : Nat) : (s.feed b).bufferSpan a = s.bufferSpan a := State.bufferSpan_congr (by simp) a
@[simp] theorem State.room_quiet (s : State) (a : Nat) : (s.quiet).room a = s.room a := State.room_congr (by simp) a
@[simp] theorem State.isDevice_quiet (s : State) (a : Nat) : (s.quiet).isDevice a = s.isDevice a := State.isDevice_congr (by simp) a
@[simp] theorem State.bufferSpan_quiet (s : State) (a : Nat) : (s.quiet).bufferSpan a = s.bufferSpan a := State.bufferSpan_congr (by simp) a
@[simp] theorem State.room_updateCount (s : State) (r : Ref) (f : Nat → Nat) (a : Nat) : (s.updateCount r f).room a = s.room a := State.room_congr (by simp) a
@[simp] theorem State.isDevice_updateCount (s : State) (r : Ref) (f : Nat → Nat) (a : Nat) : (s.updateCount r f).isDevice a = s.isDevice a := State.isDevice_congr (by simp) a
@[simp] theorem State.bufferSpan_updateCount (s : State) (r : Ref) (f : Nat → Nat) (a : Nat) : (s.updateCount r f).bufferSpan a = s.bufferSpan a := State.bufferSpan_congr (by simp) a
@[simp] theorem State.room_updateValue (s : State) (r : Ref) (f : Word → Word) (a : Nat) : (s.updateValue r f).room a = s.room a := State.room_congr (by simp) a
@[simp] theorem State.isDevice_updateValue (s : State) (r : Ref) (f : Word → Word) (a : Nat) : (s.updateValue r f).isDevice a = s.isDevice a := State.isDevice_congr (by simp) a
@[simp] theorem State.bufferSpan_updateValue (s : State) (r : Ref) (f : Word → Word) (a : Nat) : (s.updateValue r f).bufferSpan a = s.bufferSpan a := State.bufferSpan_congr (by simp) a
@[simp] theorem State.room_storeCount (s : State) (r : Ref) (k : Nat) (a : Nat) : (s.storeCount r k).room a = s.room a := State.room_congr (by simp) a
@[simp] theorem State.isDevice_storeCount (s : State) (r : Ref) (k : Nat) (a : Nat) : (s.storeCount r k).isDevice a = s.isDevice a := State.isDevice_congr (by simp) a
@[simp] theorem State.bufferSpan_storeCount (s : State) (r : Ref) (k : Nat) (a : Nat) : (s.storeCount r k).bufferSpan a = s.bufferSpan a := State.bufferSpan_congr (by simp) a
@[simp] theorem State.room_storeValue (s : State) (r : Ref) (x : Word) (a : Nat) : (s.storeValue r x).room a = s.room a := State.room_congr (by simp) a
@[simp] theorem State.isDevice_storeValue (s : State) (r : Ref) (x : Word) (a : Nat) : (s.storeValue r x).isDevice a = s.isDevice a := State.isDevice_congr (by simp) a
@[simp] theorem State.bufferSpan_storeValue (s : State) (r : Ref) (x : Word) (a : Nat) : (s.storeValue r x).bufferSpan a = s.bufferSpan a := State.bufferSpan_congr (by simp) a
@[simp] theorem State.room_freeOutputs (s : State) (vd cd : Ref) (a : Nat) : (s.freeOutputs vd cd).room a = s.room a := State.room_congr (by simp) a
@[simp] theorem State.isDevice_freeOutputs (s : State) (vd cd : Ref) (a : Nat) : (s.freeOutputs vd cd).isDevice a = s.isDevice a := State.isDevice_congr (by simp) a
@[simp] theorem State.bufferSpan_freeOutputs (s : State) (vd cd : Ref) (a : Nat) : (s.freeOutputs vd cd).bufferSpan a = s.bufferSpan a := State.bufferSpan_congr (by simp) a

/-- An address with room behind it lies in a buffer, and so do the addresses up to that room. -/
theorem State.exists_buffer_of_lt_room {s : State} {a : Nat} {k : Nat} (h : k < s.room a) :
    ∃ e ∈ s.bufs, e.holds (a + k) = true := by
  unfold State.room at h
  split at h
  · next e he =>
    have hmem := List.mem_of_find?_eq_some he
    have hold := List.find?_some he
    simp [Extent.holds] at hold
    refine ⟨e, hmem, ?_⟩
    simp [Extent.holds]
    omega
  · omega

/-- A byte write answers the state with that byte set, inside the buffer, and stops by name outside it. -/
theorem putByte_eq (dst : Nat) (k : Nat) (b : Byte) (s : State) :
    putByte dst k b s = if k < s.room dst then .next (s.setByte (dst + k) b) else .refused .destinationTooSmall := rfl

/-- A byte read gives the byte inside the buffer, and nothing outside it. -/
theorem State.readByte_eq (s : State) (src : Nat) (k : Nat) :
    s.readByte src k = if k < s.room src then some (s.mem.get (src + k)) else none := rfl

@[simp] theorem andThen_next (s : State) (f : State → Result) : andThen (.next s) f = f s := rfl
@[simp] theorem andThen_fault (e : Fault) (f : State → Result) : andThen (.fault e) f = .fault e := rfl
@[simp] theorem andThen_refused (e : Refusal) (f : State → Result) : andThen (.refused e) f = .refused e := rfl

/-- What `andThen` can answer a next state from. -/
theorem andThen_eq_next {r : Result} {f : State → Result} {t : State} :
    andThen r f = .next t ↔ ∃ s, r = .next s ∧ f s = .next t := by
  cases r <;> simp [andThen]

/-! ### Scalar objects -/

theorem State.countAt_congr {s t : State} (h : t.counts = s.counts) (a : Nat) : t.countAt a = s.countAt a := by
  simp [State.countAt, h]

theorem State.valueAt_congr {s t : State} (h : t.values = s.values) (a : Nat) : t.valueAt a = s.valueAt a := by
  simp [State.valueAt, h]

/-- The count object at an address is at that address. -/
theorem State.addr_of_countAt {s : State} {a : Nat} {c : CountObj} (h : s.countAt a = some c) : c.addr = a := by
  simpa using List.find?_some h

/-- The 64-bit object at an address is at that address. -/
theorem State.addr_of_valueAt {s : State} {a : Nat} {c : ValueObj} (h : s.valueAt a = some c) : c.addr = a := by
  simpa using List.find?_some h

/-- An update of a count changes the object at its address and no other. -/
theorem State.countAt_updateCount (s : State) (r : Ref) (f : Nat → Nat) (a : Nat) :
    (s.updateCount r f).countAt a =
      if r = some a then (s.countAt a).map (fun c => { c with val := f c.val }) else s.countAt a := by
  cases r with
  | none => simp [State.updateCount]
  | some b =>
    simp only [State.updateCount, State.countAt, List.find?_map]
    have hp : ((fun c : CountObj => decide (c.addr = a)) ∘
        fun c : CountObj => if c.addr = b then { c with val := f c.val } else c) = fun c => decide (c.addr = a) := by
      funext c
      by_cases hc : c.addr = b <;> simp [hc]
    rw [hp]
    cases hfind : s.counts.find? (fun c => decide (c.addr = a)) with
    | none => simp
    | some c =>
      have hc : c.addr = a := by simpa using List.find?_some hfind
      by_cases hab : b = a
      · simp [hc, hab]
      · have : a ≠ b := fun e => hab e.symm
        simp [hc, hab, this]

/-- An update of a value changes the object at its address and no other. -/
theorem State.valueAt_updateValue (s : State) (r : Ref) (f : Word → Word) (a : Nat) :
    (s.updateValue r f).valueAt a =
      if r = some a then (s.valueAt a).map (fun c => { c with val := f c.val }) else s.valueAt a := by
  cases r with
  | none => simp [State.updateValue]
  | some b =>
    simp only [State.updateValue, State.valueAt, List.find?_map]
    have hp : ((fun c : ValueObj => decide (c.addr = a)) ∘
        fun c : ValueObj => if c.addr = b then { c with val := f c.val } else c) = fun c => decide (c.addr = a) := by
      funext c
      by_cases hc : c.addr = b <;> simp [hc]
    rw [hp]
    cases hfind : s.values.find? (fun c => decide (c.addr = a)) with
    | none => simp
    | some c =>
      have hc : c.addr = a := by simpa using List.find?_some hfind
      by_cases hab : b = a
      · simp [hc, hab]
      · have : a ≠ b := fun e => hab e.symm
        simp [hc, hab, this]

/-- Count objects keep their addresses. -/
theorem State.updateCount_addrs (s : State) (r : Ref) (f : Nat → Nat) :
    (s.updateCount r f).counts.map CountObj.addr = s.counts.map CountObj.addr := by
  cases r with
  | none => rfl
  | some b =>
    simp only [State.updateCount, List.map_map]
    refine List.map_congr_left fun c _ => ?_
    by_cases hc : c.addr = b <;> simp [hc]

/-- 64-bit objects keep their addresses. -/
theorem State.updateValue_addrs (s : State) (r : Ref) (f : Word → Word) :
    (s.updateValue r f).values.map ValueObj.addr = s.values.map ValueObj.addr := by
  cases r with
  | none => rfl
  | some b =>
    simp only [State.updateValue, List.map_map]
    refine List.map_congr_left fun c _ => ?_
    by_cases hc : c.addr = b <;> simp [hc]

end Sys2Proof.Machine
end

