-- ==== Sys2Proof/Laws/Stream.lean ====
section
/-! SUPPORT. Arithmetic of the stream format: the length formula along the encoder's loop, the bytes of a canonical stream,
and one byte into the accumulator. -/

namespace Sys2Proof.Machine

/-! ### The length formula -/

theorem toNat_le_of_not_gt {v : Word} (h : ¬ 0x7F#64 < v) : v.toNat ≤ 127 := by
  have : ¬ (127 < v.toNat) := by simpa [BitVec.lt_def] using h
  omega

theorem toNat_gt_of_gt {v : Word} (h : 0x7F#64 < v) : 127 < v.toNat := by simpa [BitVec.lt_def] using h

theorem bitlen_le_iff (v : Word) (k : Nat) : bitlen v ≤ k ↔ v.toNat < 2 ^ k := by
  unfold bitlen
  by_cases hv : v = 0#64
  · simp [hv]
  · have h0 : v.toNat ≠ 0 := fun h => hv (BitVec.eq_of_toNat_eq (by simpa using h))
    rw [if_neg hv, ← Nat.log2_lt h0]
    omega

/-- `L(v) ≤ k` exactly when `v` fits in `7k` bits (R45's table), for `k ≥ 1`. -/
theorem encLen_le_iff (v : Word) {k : Nat} (hk : 1 ≤ k) : encLen v ≤ k ↔ v.toNat < 2 ^ (7 * k) := by
  rw [← bitlen_le_iff]
  unfold encLen
  omega

theorem encLen_pos (v : Word) : 1 ≤ encLen v := by
  unfold encLen
  omega

theorem encLen_le_maxLen (v : Word) : encLen v ≤ maxLen := by
  have : maxLen = 10 := rfl
  rw [encLen_le_iff v (by omega)]
  exact lt_of_lt_of_le v.isLt (by rw [this]; norm_num)

/-- A value the loop does not enter for has length 1. -/
theorem encLen_of_small {v : Word} (h : ¬ 0x7F#64 < v) : encLen v = 1 := by
  have h1 := (encLen_le_iff v (le_refl 1)).2 (by have := toNat_le_of_not_gt h; norm_num; omega)
  have := encLen_pos v
  omega

theorem toNat_shiftOut (v : Word) : (v >>> groupBits).toNat = v.toNat / 128 := by
  simp [groupBits, BitVec.toNat_ushiftRight, Nat.shiftRight_eq_div_pow]

/-- One turn of the loop takes one byte off the length (R60). -/
theorem encLen_of_big {v : Word} (h : 0x7F#64 < v) : encLen v = encLen (v >>> groupBits) + 1 := by
  have hv := toNat_gt_of_gt h
  have key : ∀ k, 1 ≤ k → (encLen v ≤ k + 1 ↔ encLen (v >>> groupBits) ≤ k) := by
    intro k hk
    rw [encLen_le_iff v (by omega), encLen_le_iff _ hk, toNat_shiftOut, Nat.div_lt_iff_lt_mul (by norm_num)]
    have : 2 ^ (7 * (k + 1)) = 2 ^ (7 * k) * 128 := by rw [Nat.mul_add, Nat.pow_add]
    rw [this]
  have h2 : ¬ encLen v ≤ 1 := by
    rw [encLen_le_iff v (le_refl 1)]
    norm_num
    omega
  have hp := encLen_pos (v >>> groupBits)
  have h3 := (key (encLen (v >>> groupBits)) hp).2 (le_refl _)
  have h4 := (key (encLen v - 1) (by omega)).1 (by omega)
  omega

/-! ### The bytes of a canonical stream -/

theorem shift_shift (v : Word) (j : Nat) : (v >>> groupBits) >>> (7 * j) = v >>> (7 * (j + 1)) := by
  rw [← BitVec.shiftRight_add]
  simp [groupBits, Nat.mul_add, Nat.add_comm]

theorem setWidth_and_mask (v : Word) : v.setWidth 8 &&& dataMask = (v &&& 0x7F#64).setWidth 8 := by
  simp [dataMask, BitVec.setWidth_and]

theorem setWidth_and_mask_of_small {v : Word} (h : ¬ 0x7F#64 < v) : v.setWidth 8 &&& dataMask = v.setWidth 8 := by
  have hv := toNat_le_of_not_gt h
  apply BitVec.eq_of_toNat_eq
  have h127 : (0x7F : Nat) = 2 ^ 7 - 1 := rfl
  simp only [dataMask, BitVec.toNat_and, BitVec.toNat_setWidth, BitVec.toNat_ofNat]
  rw [show (127 % 2 ^ 8 : Nat) = 2 ^ 7 - 1 by norm_num, Nat.and_two_pow_sub_one_eq_mod]
  omega

theorem streamByte_zero_of_big {v : Word} (h : 0x7F#64 < v) : streamByte v 0 = contByte v := by
  have := encLen_of_big h
  have hp := encLen_pos (v >>> groupBits)
  unfold streamByte contByte
  rw [if_pos (by omega)]
  simp [setWidth_and_mask]

theorem streamByte_zero_of_small {v : Word} (h : ¬ 0x7F#64 < v) : streamByte v 0 = lastByte v := by
  unfold streamByte lastByte
  rw [if_neg (by rw [encLen_of_small h]; omega)]
  simpa using setWidth_and_mask_of_small h

theorem streamByte_succ {v : Word} (h : 0x7F#64 < v) (j : Nat) :
    streamByte v (j + 1) = streamByte (v >>> groupBits) j := by
  unfold streamByte
  rw [encLen_of_big h, shift_shift]
  simp

/-- The canonical stream of a value above 0x7F: one continuation byte, then the stream of the rest (R58). -/
theorem canonical_of_big {v : Word} (h : 0x7F#64 < v) : canonical v = contByte v :: canonical (v >>> groupBits) := by
  unfold canonical
  rw [encLen_of_big h, List.range_succ_eq_map, List.map_cons, List.map_map, streamByte_zero_of_big h]
  congr 1
  exact List.map_congr_left fun j _ => streamByte_succ h j

/-- The canonical stream of a value up to 0x7F: that value, in one byte (R58, R61). -/
theorem canonical_of_small {v : Word} (h : ¬ 0x7F#64 < v) : canonical v = [lastByte v] := by
  unfold canonical
  rw [encLen_of_small h]
  simp [streamByte_zero_of_small h]

@[simp] theorem canonical_length (v : Word) : (canonical v).length = encLen v := by simp [canonical]

/-! ### Continuation bits -/

theorem isCont_contByte (v : Word) : isCont (contByte v) = true := by
  unfold isCont contByte contFlag
  generalize BitVec.setWidth 8 (v &&& 0x7F#64) = b
  revert b
  decide

theorem isCont_mask (b : Byte) : isCont (b &&& dataMask) = false := by
  revert b
  decide

theorem isCont_mask_or (b : Byte) : isCont (b &&& dataMask ||| contFlag) = true := by
  revert b
  decide

/-- Every byte of a canonical stream but the last has bit 7 set, and the last has it clear (R41, R59). -/
theorem isCont_streamByte (v : Word) (j : Nat) : isCont (streamByte v j) = decide (j + 1 < encLen v) := by
  unfold streamByte
  split
  · rw [isCont_mask_or]
    simp [*]
  · rw [isCont_mask]
    simp [*]

/-! ### One byte into the accumulator -/

theorem dataBits_toNat (b : Byte) : (dataBits b).toNat = (b &&& dataMask).toNat := by
  unfold dataBits
  simp only [BitVec.toNat_setWidth]
  have := (b &&& dataMask).isLt
  omega

theorem data_lt (b : Byte) : (b &&& dataMask).toNat < 128 := by
  revert b
  decide

/-- OR-ing a group in above everything read so far adds it, modulo 2^64 (R68, R70). -/
theorem or_group (A : Nat) (b : Byte) (k : Nat) (hA : A < 2 ^ k) :
    BitVec.ofNat 64 A ||| shl64 (dataBits b) k = BitVec.ofNat 64 (A + (b &&& dataMask).toNat * 2 ^ k) := by
  apply BitVec.eq_of_toNat_eq
  rw [BitVec.toNat_or]
  simp only [shl64, BitVec.toNat_ofNat, BitVec.toNat_shiftLeft, dataBits_toNat]
  rw [← Nat.or_mod_two_pow, Nat.or_comm, ← Nat.shiftLeft_add_eq_or_of_lt hA, Nat.shiftLeft_eq, Nat.add_comm]

theorem groupSum_lt (bs : List Byte) : groupSum bs < 2 ^ (7 * bs.length) := by
  induction bs with
  | nil => simp [groupSum]
  | cons b t ih =>
    have := data_lt b
    have hp : 2 ^ (7 * (b :: t).length) = 128 * 2 ^ (7 * t.length) := by
      simp [Nat.mul_add, Nat.pow_add, Nat.mul_comm]
    rw [hp, groupSum]
    omega

theorem groupSum_append_one (bs : List Byte) (b : Byte) :
    groupSum (bs ++ [b]) = groupSum bs + (b &&& dataMask).toNat * 2 ^ (7 * bs.length) := by
  induction bs with
  | nil => simp [groupSum]
  | cons c t ih =>
    have hp : 2 ^ (7 * (c :: t).length) = 128 * 2 ^ (7 * t.length) := by
      simp [Nat.mul_add, Nat.pow_add, Nat.mul_comm]
    simp only [List.cons_append, groupSum, ih, hp]
    ring

theorem streamValue_append_one (bs : List Byte) (b : Byte) :
    streamValue (bs ++ [b]) = streamValue bs ||| shl64 (dataBits b) (7 * bs.length) := by
  unfold streamValue
  rw [groupSum_append_one, or_group _ _ _ (groupSum_lt bs)]

end Sys2Proof.Machine
end

