-- ==== Sys2Proof/Laws/Decode.lean ====
section
/-! SUPPORT. Everything the decode of a stream can do, said once (`decodeWith_cases` and the lemma for each of its ends). -/

namespace Sys2Proof.Machine

theorem Memory.bytes_succ (m : Memory) (a k : Nat) : m.bytes a (k + 1) = m.get a :: m.bytes (a + 1) k := by
  simp only [Memory.bytes, List.range_succ_eq_map, List.map_cons, List.map_map, Nat.add_zero]
  congr 1
  refine List.map_congr_left fun j _ => ?_
  simp [Nat.add_assoc, Nat.add_comm 1]

theorem Memory.bytes_succ_last (m : Memory) (a k : Nat) : m.bytes a (k + 1) = m.bytes a k ++ [m.get (a + k)] := by
  simp [Memory.bytes, List.range_succ]

@[simp] theorem Memory.bytes_length (m : Memory) (a k : Nat) : (m.bytes a k).length = k := by simp [Memory.bytes]

theorem Memory.bytes_congr {m p : Memory} {a k : Nat} (h : ∀ j, j < k → m.get (a + j) = p.get (a + j)) :
    m.bytes a k = p.bytes a k :=
  List.map_congr_left fun j hj => h j (List.mem_range.1 hj)

/-- Bytes read in order into the decoder's registers. -/
def State.feedAll (s : State) (bs : List Byte) : State := bs.foldl State.feed s

theorem State.feedAll_cons (s : State) (b : Byte) (bs : List Byte) : s.feedAll (b :: bs) = (s.feed b).feedAll bs := rfl

theorem State.feedAll_append_one (s : State) (bs : List Byte) (b : Byte) :
    s.feedAll (bs ++ [b]) = (s.feedAll bs).feed b := by simp [State.feedAll]

/-- The decoder's registers after `bs` (R68): the value of the bytes, their offset, their number. -/
def State.fed (s : State) (bs : List Byte) : State :=
  { s with acc := streamValue bs, shift := BitVec.ofNat 7 (7 * bs.length), i := BitVec.ofNat 4 bs.length }

/-- The loop's invariant (R68): after at most MAXLEN bytes the registers hold their closed form. -/
theorem State.feedAll_startDecode (s : State) (bs : List Byte) (h : bs.length ≤ maxLen) :
    s.startDecode.feedAll bs = s.fed bs := by
  have h10 : maxLen = 10 := rfl
  induction bs using List.reverseRecOn with
  | nil => rfl
  | append_singleton bs b ih =>
    have hl : bs.length ≤ 9 := by simp at h; omega
    rw [State.feedAll_append_one, ih (by omega)]
    have hsh : (BitVec.ofNat 7 (7 * bs.length)).toNat = 7 * bs.length := by
      simp
      omega
    have h7 : BitVec.ofNat 7 (7 * bs.length) + 7#7 = BitVec.ofNat 7 (7 * (bs ++ [b]).length) := by
      apply BitVec.eq_of_toNat_eq
      simp [BitVec.toNat_add]
      omega
    have h4 : BitVec.ofNat 4 bs.length + 1#4 = BitVec.ofNat 4 (bs ++ [b]).length := by
      apply BitVec.eq_of_toNat_eq
      simp [BitVec.toNat_add]
    simp only [State.feed, State.fed, hsh, h7, h4, streamValue_append_one]

theorem feed_i_toNat {s : State} {b : Byte} (h : s.i.toNat < 15) : (s.feed b).i.toNat = s.i.toNat + 1 := by
  simp [BitVec.toNat_add]
  omega

theorem readByte_feed (s : State) (b : Byte) (src k : Nat) : (s.feed b).readByte src k = s.readByte src k :=
  State.readByte_congr rfl rfl src k

theorem readByte_of_lt {s : State} {src k : Nat} (h : k < s.room src) :
    s.readByte src k = some (s.mem.get (src + k)) := if_pos h

/-- A scan meets a terminating byte. -/
theorem scan_terminated (left src : Nat) (s : State) (k : Nat) (hk : k < left) (hi : s.i.toNat + left ≤ 15)
    (hr : s.i.toNat + k < s.room src) (hc : ∀ j, j < k → isCont (s.mem.get (src + (s.i.toNat + j))) = true)
    (hl : isCont (s.mem.get (src + (s.i.toNat + k))) = false) :
    scan left src s = .terminated (s.feedAll (s.mem.bytes (src + s.i.toNat) (k + 1))) := by
  induction left generalizing s k with
  | zero => omega
  | succ left ih =>
    rw [scan, readByte_of_lt (by omega), Memory.bytes_succ, State.feedAll_cons]
    cases k with
    | zero =>
      simp only [Nat.add_zero] at hl
      simp [hl, Memory.bytes, State.feedAll]
    | succ k =>
      have h0 := hc 0 (by omega)
      simp only [Nat.add_zero] at h0
      have hi' : (s.feed (s.mem.get (src + s.i.toNat))).i.toNat = s.i.toNat + 1 := feed_i_toNat (by omega)
      simp only [h0, if_true]
      rw [ih (s.feed (s.mem.get (src + s.i.toNat))) k (by omega) (by omega)]
      · rw [hi', State.feed_mem, Nat.add_assoc]
      · rw [hi', State.room_feed]
        omega
      · intro j hj
        rw [hi', State.feed_mem]
        have := hc (j + 1) (by omega)
        rwa [show s.i.toNat + (j + 1) = s.i.toNat + 1 + j by omega] at this
      · rw [hi', State.feed_mem]
        rwa [show s.i.toNat + (k + 1) = s.i.toNat + 1 + k by omega] at hl

/-- A scan reads every position and meets none. -/
theorem scan_exhausted (left src : Nat) (s : State) (hi : s.i.toNat + left ≤ 15) (hr : s.i.toNat + left ≤ s.room src)
    (hc : ∀ j, j < left → isCont (s.mem.get (src + (s.i.toNat + j))) = true) :
    scan left src s = .exhausted (s.feedAll (s.mem.bytes (src + s.i.toNat) left)) := by
  induction left generalizing s with
  | zero => rfl
  | succ left ih =>
    have h0 := hc 0 (by omega)
    simp only [Nat.add_zero] at h0
    have hi' : (s.feed (s.mem.get (src + s.i.toNat))).i.toNat = s.i.toNat + 1 := feed_i_toNat (by omega)
    rw [scan, readByte_of_lt (by omega), Memory.bytes_succ, State.feedAll_cons]
    simp only [h0, if_true]
    rw [ih (s.feed (s.mem.get (src + s.i.toNat))) (by omega)]
    · rw [hi', State.feed_mem, Nat.add_assoc]
    · rw [hi', State.room_feed]
      omega
    · intro j hj
      rw [hi', State.feed_mem]
      have := hc (j + 1) (by omega)
      rwa [show s.i.toNat + (j + 1) = s.i.toNat + 1 + j by omega] at this

/-- A scan runs past the end of the buffer. -/
theorem scan_short (left src : Nat) (s : State) (hi : s.i.toNat + left ≤ 15) (hr : s.room src < s.i.toNat + left)
    (hc : ∀ j, s.i.toNat + j < s.room src → isCont (s.mem.get (src + (s.i.toNat + j))) = true)
    (hle : s.i.toNat ≤ s.room src) : scan left src s = .short := by
  induction left generalizing s with
  | zero => omega
  | succ left ih =>
    rw [scan]
    by_cases h : s.i.toNat < s.room src
    · have h0 := hc 0 (by omega)
      simp only [Nat.add_zero] at h0
      have hi' : (s.feed (s.mem.get (src + s.i.toNat))).i.toNat = s.i.toNat + 1 := feed_i_toNat (by omega)
      have hroom : (s.feed (s.mem.get (src + s.i.toNat))).room src = s.room src := State.room_feed s _ src
      rw [readByte_of_lt h]
      simp only [h0, if_true]
      refine ih _ (by omega) (by rw [hi', hroom]; omega) ?_ (by rw [hi', hroom]; omega)
      intro j hj
      rw [hi', hroom] at hj
      rw [hi', State.feed_mem]
      have := hc (j + 1) (by omega)
      rwa [show s.i.toNat + (j + 1) = s.i.toNat + 1 + j by omega] at this
    · have : s.readByte src s.i.toNat = none := if_neg h
      rw [this]

/-- The buffer ends before a terminating byte or the cap (U3). -/
structure ShortSource (s : State) (src : Nat) : Prop where
  room : s.room src < maxLen
  all : ∀ j, j < s.room src → isCont (s.mem.get (src + j)) = true

/-- A source terminates, runs through the cap, or ends too early. -/
theorem source_cases (s : State) (src : Nat) :
    (∃ k, Terminates s src k) ∨ Unterminated s src ∨ ShortSource s src := by
  by_cases hex : ∃ k, (k < maxLen ∧ k < s.room src) ∧ isCont (s.mem.get (src + k)) = false
  · left
    refine ⟨Nat.find hex, (Nat.find_spec hex).1.1, (Nat.find_spec hex).1.2, fun j hj => ?_, (Nat.find_spec hex).2⟩
    have h1 := Nat.find_min hex hj
    have h2 := (Nat.find_spec hex).1
    by_contra hcon
    exact h1 ⟨⟨by omega, by omega⟩, by simpa using hcon⟩
  · right
    have hall : ∀ k, k < maxLen → k < s.room src → isCont (s.mem.get (src + k)) = true := by
      intro k h1 h2
      by_contra hcon
      exact hex ⟨k, ⟨h1, h2⟩, by simpa using hcon⟩
    by_cases hr : maxLen ≤ s.room src
    · exact .inl ⟨hr, fun j hj => hall j hj (by omega)⟩
    · exact .inr ⟨by omega, fun j hj => hall j (by omega) hj⟩

/-- The state a decode leaves when it answers OK with terminating byte at index `k` (R67). -/
def State.decoded (s : State) (post : Word → Word) (src valDst : Nat) (consDst : Ref) (k : Nat) : State :=
  (((s.fed (s.mem.bytes src (k + 1))).storeValue (some valDst) (post (streamValue (s.mem.bytes src (k + 1))))).storeCount
    consDst (k + 1)).report .ok

/-- The state a decode leaves when it answers INCOMPLETE_STREAM (R74, R99). -/
def State.incompleted (s : State) (src valDst : Nat) (consDst : Ref) : State :=
  ((s.fed (s.mem.bytes src maxLen)).freeOutputs (some valDst) consDst).report .incompleteStream

theorem scan_of_terminates {s : State} {src k : Nat} (h : Terminates s src k) :
    scan maxLen src s.startDecode = .terminated (s.fed (s.mem.bytes src (k + 1))) := by
  have h10 : maxLen = 10 := rfl
  have hk := h.inCap
  rw [scan_terminated maxLen src s.startDecode k hk]
  · rw [← State.feedAll_startDecode s _ (by simp; omega)]
    simp
  · simp [h10]
  · simpa using h.inRoom
  · simpa using h.before
  · simpa using h.last

theorem scan_of_unterminated {s : State} {src : Nat} (h : Unterminated s src) :
    scan maxLen src s.startDecode = .exhausted (s.fed (s.mem.bytes src maxLen)) := by
  rw [scan_exhausted maxLen src s.startDecode]
  · rw [← State.feedAll_startDecode s _ (by simp)]
    simp
  · simp [maxLen]
  · simpa using h.inRoom
  · simpa using h.all

theorem scan_of_short {s : State} {src : Nat} (h : ShortSource s src) : scan maxLen src s.startDecode = .short := by
  refine scan_short maxLen src s.startDecode ?_ ?_ ?_ ?_
  · simp [maxLen]
  · simpa using h.room
  · simpa using h.all
  · simp

variable {post : Word → Word} {s : State} {src valDst : Nat} {consDst : Ref}

theorem decodeWith_of_contract {r : Refusal} (h : s.decodeContract src valDst consDst = some r) :
    decodeWith post (some src) (some valDst) consDst s = .refused r := by
  simp [decodeWith, h]

theorem decodeWith_of_terminates {k : Nat} (hc : s.decodeContract src valDst consDst = none) (h : Terminates s src k) :
    decodeWith post (some src) (some valDst) consDst s = .next (s.decoded post src valDst consDst k) := by
  have hk := h.inCap
  have h10 : maxLen = 10 := rfl
  have hi : (s.fed (s.mem.bytes src (k + 1))).i.toNat = k + 1 := by
    simp [State.fed]
    omega
  simp only [decodeWith, hc, scan_of_terminates h, hi, State.decoded]
  rfl

theorem decodeWith_of_unterminated (hc : s.decodeContract src valDst consDst = none) (h : Unterminated s src) :
    decodeWith post (some src) (some valDst) consDst s = .next (s.incompleted src valDst consDst) := by
  simp [decodeWith, hc, scan_of_unterminated h, State.incompleted]

theorem decodeWith_of_short (hc : s.decodeContract src valDst consDst = none) (h : ShortSource s src) :
    decodeWith post (some src) (some valDst) consDst s = .refused .sourceTooShort := by
  simp [decodeWith, hc, scan_of_short h]

/-- Everything a decode with both required references present can do. -/
theorem decodeWith_cases (post : Word → Word) (s : State) (src valDst : Nat) (consDst : Ref) :
    (∃ r, s.decodeContract src valDst consDst = some r ∧
      decodeWith post (some src) (some valDst) consDst s = .refused r) ∨
    (s.decodeContract src valDst consDst = none ∧
      ((∃ k, Terminates s src k ∧
          decodeWith post (some src) (some valDst) consDst s = .next (s.decoded post src valDst consDst k)) ∨
        (Unterminated s src ∧
          decodeWith post (some src) (some valDst) consDst s = .next (s.incompleted src valDst consDst)) ∨
        (ShortSource s src ∧ decodeWith post (some src) (some valDst) consDst s = .refused .sourceTooShort))) := by
  cases hc : s.decodeContract src valDst consDst with
  | some r => exact .inl ⟨r, rfl, decodeWith_of_contract hc⟩
  | none =>
    refine .inr ⟨rfl, ?_⟩
    rcases source_cases s src with ⟨k, hk⟩ | hu | hs
    · exact .inl ⟨k, hk, decodeWith_of_terminates hc hk⟩
    · exact .inr (.inl ⟨hu, decodeWith_of_unterminated hc hu⟩)
    · exact .inr (.inr ⟨hs, decodeWith_of_short hc hs⟩)

end Sys2Proof.Machine
end

