-- ==== Sys2Proof/Laws/Encode.lean ====
section
/-! SUPPORT. Everything the encode of a 64-bit value can do, said once (`encodeUnsigned_eq`). -/

namespace Sys2Proof.Machine

/-- The bytes the loop emits: one continuation byte for each group but the last. -/
def loopBytes (x : Word) : Nat → List Byte
  | 0 => []
  | k + 1 => contByte x :: loopBytes (x >>> groupBits) k

theorem loopBytes_length (x : Word) (k : Nat) : (loopBytes x k).length = k := by
  induction k generalizing x with
  | zero => rfl
  | succ k ih => simp [loopBytes, ih]

/-- The state the loop leaves when it emits `k` bytes. -/
def State.afterLoop (s : State) (dst : Nat) (k : Nat) : State :=
  { s with v := s.v >>> (7 * k), n := s.n + BitVec.ofNat 4 k,
           mem := s.mem.write (dst + s.n.toNat) (loopBytes s.v k) }

theorem n_shiftOut_toNat {s : State} (h : s.n.toNat < 15) : s.shiftOut.n.toNat = s.n.toNat + 1 := by
  simp [BitVec.toNat_add]
  omega

theorem fuel_step {v : Word} {fuel : Nat} (h : v.toNat < 2 ^ (7 * (fuel + 1 + 1))) :
    (v >>> groupBits).toNat < 2 ^ (7 * (fuel + 1)) := by
  rw [toNat_shiftOut, Nat.div_lt_iff_lt_mul (by norm_num)]
  have : 2 ^ (7 * (fuel + 1 + 1)) = 2 ^ (7 * (fuel + 1)) * 128 := by rw [Nat.mul_add 7 (fuel + 1), Nat.pow_add]
  omega

/-- The loop runs `L(v) - 1` times (R60) if the bytes fit, and stops by name at the first that does not. -/
theorem encodeLoop_eq (fuel dst : Nat) (s : State) (hf : s.v.toNat < 2 ^ (7 * (fuel + 1)))
    (hn : s.n.toNat + encLen s.v ≤ 15) :
    encodeLoop fuel dst s =
      if s.n.toNat + (encLen s.v - 1) ≤ s.room dst ∨ encLen s.v = 1
      then .next (s.afterLoop dst (encLen s.v - 1)) else .refused .destinationTooSmall := by
  induction fuel generalizing s with
  | zero =>
    have hs : ¬ 0x7F#64 < s.v := by
      simp only [BitVec.lt_def]
      norm_num at hf ⊢
      omega
    have h1 := encLen_of_small hs
    rw [encodeLoop, if_neg hs, if_pos (.inr h1), h1]
    simp [State.afterLoop, loopBytes, Memory.write]
  | succ fuel ih =>
    rw [encodeLoop]
    by_cases hs : 0x7F#64 < s.v
    · have hL := encLen_of_big hs
      have hp := encLen_pos (s.v >>> groupBits)
      rw [if_pos hs, putByte_eq]
      by_cases hr : s.n.toNat < s.room dst
      · rw [if_pos hr, andThen_next]
        have hn' : (s.setByte (dst + s.n.toNat) (contByte s.v)).shiftOut.n.toNat = s.n.toNat + 1 :=
          n_shiftOut_toNat (by simp; omega)
        have hv' : (s.setByte (dst + s.n.toNat) (contByte s.v)).shiftOut.v = s.v >>> groupBits := by simp
        have hroom : (s.setByte (dst + s.n.toNat) (contByte s.v)).shiftOut.room dst = s.room dst :=
          State.room_congr (by simp) _
        rw [ih _ (by rw [hv']; exact fuel_step hf) (by rw [hn', hv']; omega), hn', hv', hroom]
        have hcond : (s.n.toNat + 1 + (encLen (s.v >>> groupBits) - 1) ≤ s.room dst ∨ encLen (s.v >>> groupBits) = 1) ↔
            (s.n.toNat + (encLen s.v - 1) ≤ s.room dst ∨ encLen s.v = 1) := by omega
        simp only [hcond]
        split
        · congr 1
          obtain ⟨m, hm⟩ : ∃ m, encLen (s.v >>> groupBits) - 1 = m := ⟨_, rfl⟩
          have hm' : encLen s.v - 1 = m + 1 := by omega
          rw [hm, hm']
          have hnn : s.n + 1#4 + BitVec.ofNat 4 m = s.n + BitVec.ofNat 4 (m + 1) := by
            apply BitVec.eq_of_toNat_eq
            simp [BitVec.toNat_add]
            omega
          simp only [State.afterLoop, hn', hv', shift_shift, loopBytes, Memory.write]
          simp [State.shiftOut, State.setByte, hnn, Nat.add_assoc]
        · rfl
      · rw [if_neg hr, andThen_refused, if_neg (by omega)]
    · have h1 := encLen_of_small hs
      rw [if_neg hs, if_pos (.inr h1), h1]
      simp [State.afterLoop, loopBytes, Memory.write]

/-- The bytes of the loop and the final byte are the canonical stream (R59). -/
theorem canonical_eq_loopBytes (x : Word) :
    canonical x = loopBytes x (encLen x - 1) ++ [lastByte (x >>> (7 * (encLen x - 1)))] := by
  obtain ⟨m, hm⟩ : ∃ m, encLen x = m + 1 := ⟨encLen x - 1, by have := encLen_pos x; omega⟩
  induction m generalizing x with
  | zero =>
    have hs : ¬ 0x7F#64 < x := fun h => by
      have := encLen_of_big h
      have := encLen_pos (x >>> groupBits)
      omega
    rw [canonical_of_small hs, hm]
    simp [loopBytes]
  | succ m ih =>
    have hb : 0x7F#64 < x := by
      by_contra h
      have := encLen_of_small h
      omega
    have hL := encLen_of_big hb
    have hm' : encLen (x >>> groupBits) = m + 1 := by omega
    rw [canonical_of_big hb, ih _ hm', hm', hm]
    simp only [Nat.add_sub_cancel, loopBytes, List.cons_append, shift_shift]

/-- The state an encode of `x` leaves when it answers OK (R58). -/
def State.encoded (s : State) (x : Word) (dst : Nat) (lenDst : Ref) : State :=
  (({ s with v := x >>> (7 * (encLen x - 1)), n := BitVec.ofNat 4 (encLen x),
             mem := s.mem.write dst (canonical x) } : State).storeCount lenDst (encLen x)).report .ok

theorem fuel_enough (x : Word) : x.toNat < 2 ^ (7 * (encodeFuel + 1)) :=
  lt_of_lt_of_le x.isLt (Nat.pow_le_pow_right (by norm_num) (by simp [encodeFuel, xlen]))

/-- Everything an encode with a present destination can do: refuse a request outside the contract, refuse one whose bytes do
not fit, or write the canonical stream, report its length and answer OK. -/
theorem encodeUnsigned_eq (x : Word) (dst : Nat) (lenDst : Ref) (s : State) :
    encodeUnsigned x (some dst) lenDst s =
      match s.encodeContract dst lenDst with
      | some r => .refused r
      | none => if encLen x ≤ s.room dst then .next (s.encoded x dst lenDst) else .refused .destinationTooSmall := by
  have h10 : maxLen = 10 := rfl
  have hle := encLen_le_maxLen x
  have hp := encLen_pos x
  simp only [encodeUnsigned]
  cases s.encodeContract dst lenDst with
  | some r => rfl
  | none =>
    simp only
    have hroom : (s.startEncode x).room dst = s.room dst := State.room_congr (by simp) _
    rw [encodeLoop_eq _ _ _ (by simpa using fuel_enough x) (by simp; omega)]
    simp only [State.startEncode_v, State.startEncode_n, BitVec.toNat_ofNat, Nat.zero_mod, Nat.zero_add, hroom]
    have hfin : ∀ t : State, t.n.toNat = encLen x - 1 → t.bufs = s.bufs →
        encodeFinish dst lenDst t =
          if encLen x ≤ s.room dst
          then .next (((t.setByte (dst + (encLen x - 1)) (lastByte t.v)).countFinal.storeCount lenDst (encLen x)).report .ok)
          else .refused .destinationTooSmall := by
      intro t hn hb
      have hcf : ((t.setByte (dst + (encLen x - 1)) (lastByte t.v)).countFinal).n.toNat = encLen x := by
        simp [BitVec.toNat_add, hn]
        omega
      rw [encodeFinish, putByte_eq, hn, State.room_congr hb]
      by_cases hr : encLen x - 1 < s.room dst
      · rw [if_pos hr, if_pos (by omega), andThen_next, hcf]
      · rw [if_neg hr, if_neg (by omega), andThen_refused]
    have hafter : ((s.startEncode x).afterLoop dst (encLen x - 1)).n.toNat = encLen x - 1 := by
      simp [State.afterLoop, State.startEncode]
      omega
    by_cases hc : encLen x - 1 ≤ s.room dst ∨ encLen x = 1
    · rw [if_pos hc, andThen_next, hfin _ hafter rfl]
      split
      · congr 1
        have hnn : BitVec.ofNat 4 (encLen x - 1) + 1#4 = BitVec.ofNat 4 (encLen x) := by
          apply BitVec.eq_of_toNat_eq
          simp [BitVec.toNat_add]
          omega
        have hmem : (s.mem.write dst (loopBytes x (encLen x - 1))).set (dst + (encLen x - 1))
            (lastByte (x >>> (7 * (encLen x - 1)))) = s.mem.write dst (canonical x) := by
          rw [canonical_eq_loopBytes, Memory.write_append, loopBytes_length]
          rfl
        simp [State.encoded, State.afterLoop, State.startEncode, State.setByte, State.countFinal, hnn, hmem]
      · rfl
    · rw [if_neg hc, andThen_refused, if_neg (by omega)]

end Sys2Proof.Machine
end

