-- ==== Sys2Proof/Laws/Effects.lean ====
section
/-!
SUPPORT. What the closed forms `State.encoded`, `State.decoded` and `State.incompleted` hold, and the one inversion lemma of
each shared operation: if it answers a next state, then one of these cases holds.
-/

namespace Sys2Proof.Machine

theorem canonical_getD (x : Word) (j : Nat) (h : j < encLen x) :
    (canonical x).getD j Memory.unlisted = streamByte x j := by
  simp [canonical, List.getD, h]

/-- What a completed encode leaves. -/
theorem encoded_effect (x : Word) (dst : Nat) (lenDst : Ref) (s : State) :
    EncodeEffect x dst lenDst s (s.encoded x dst lenDst) := by
  have hmem : (s.encoded x dst lenDst).mem = s.mem.write dst (canonical x) := by simp [State.encoded]
  have hcount : ∀ a, (s.encoded x dst lenDst).countAt a = (s.updateCount lenDst fun _ => encLen x).countAt a := by
    intro a
    exact State.countAt_congr (by cases lenDst <;> rfl) a
  refine ⟨rfl, fun a => ?_, fun a => ?_, ?_, ?_, ?_, ?_⟩
  · rw [hmem, Memory.get_write, canonical_length]
    split
    · rw [canonical_getD]
      omega
    · rfl
  · rw [hcount, State.countAt_updateCount]
  all_goals simp [State.encoded]

/-- The registers a completed encode leaves. -/
theorem encoded_registers (x : Word) (dst : Nat) (lenDst : Ref) (s : State) :
    EncodeRegisters x s (s.encoded x dst lenDst) := by
  have h10 : maxLen = 10 := rfl
  have hle := encLen_le_maxLen x
  refine ⟨?_, ?_, ?_, ?_, ?_⟩
  all_goals simp [State.encoded]
  omega

/-- What a completed decode leaves. -/
theorem decoded_effect (post : Word → Word) (src valDst : Nat) (consDst : Ref) (k : Nat) (s : State) :
    DecodeEffect (post (streamValue (s.mem.bytes src (k + 1)))) valDst consDst k s
      (s.decoded post src valDst consDst k) := by
  have hvalue : ∀ a, (s.decoded post src valDst consDst k).valueAt a =
      (s.updateValue (some valDst) fun _ => post (streamValue (s.mem.bytes src (k + 1)))).valueAt a := by
    intro a
    exact State.valueAt_congr (by cases consDst <;> rfl) a
  have hcount : ∀ a, (s.decoded post src valDst consDst k).countAt a = (s.updateCount consDst fun _ => k + 1).countAt a := by
    intro a
    exact State.countAt_congr (by cases consDst <;> rfl) a
  refine ⟨rfl, fun a => ?_, fun a => ?_, ?_, ?_, ?_, ?_⟩
  · rw [hvalue, State.valueAt_updateValue]
    simp [eq_comm]
  · rw [hcount, State.countAt_updateCount]
  all_goals simp [State.decoded, State.fed]

/-- The registers a completed decode leaves. -/
theorem decoded_registers (post : Word → Word) (src valDst : Nat) (consDst : Ref) {k : Nat} (hk : k < maxLen) (s : State) :
    DecodeRegisters src (k + 1) s (s.decoded post src valDst consDst k) := by
  have h10 : maxLen = 10 := rfl
  refine ⟨?_, ?_, ?_, ?_, ?_⟩
  all_goals simp [State.decoded, State.fed]
  all_goals omega

theorem incompleted_values (s : State) (src valDst : Nat) (consDst : Ref) :
    (s.incompleted src valDst consDst).values = (s.updateValue (some valDst) fun old =>
      Config.freeValue s.draws old (streamValue (s.mem.bytes src maxLen))).values := by
  simp only [State.incompleted, State.report_values, State.freeOutputs_values, State.updateValue, State.fed]

theorem incompleted_counts (s : State) (src valDst : Nat) (consDst : Ref) :
    (s.incompleted src valDst consDst).counts = (s.updateCount consDst fun old =>
      Config.freeCount s.draws old (BitVec.ofNat 4 maxLen).toNat).counts := by
  cases consDst <;> simp only [State.incompleted, State.report_counts, State.freeOutputs_counts, State.updateCount,
    State.fed, Memory.bytes_length]

/-- What an incomplete decode leaves. -/
theorem incompleted_effect (src valDst : Nat) (consDst : Ref) (s : State) :
    IncompleteEffect valDst consDst s (s.incompleted src valDst consDst) := by
  have hf := fun a => State.valueAt_congr (incompleted_values s src valDst consDst) a
  have hg := fun a => State.countAt_congr (incompleted_counts s src valDst consDst) a
  refine ⟨rfl, fun a ha => ?_, ?_, fun a ha => ?_, fun a ha => ?_, ?_, ?_, ?_⟩
  · rw [hf, State.valueAt_updateValue, if_neg (by simpa [eq_comm] using ha)]
  · rw [hf, State.valueAt_updateValue, if_pos rfl]
    cases s.valueAt valDst with
    | none => exact ⟨0, rfl⟩
    | some c => exact ⟨_, rfl⟩
  · rw [hg, State.countAt_updateCount, if_neg ha]
  · rw [hg, State.countAt_updateCount, if_pos ha]
    cases s.countAt a with
    | none => exact ⟨0, rfl⟩
    | some c => exact ⟨_, rfl⟩
  all_goals simp [State.incompleted, State.fed]

/-- The registers an incomplete decode leaves. -/
theorem incompleted_registers (src valDst : Nat) (consDst : Ref) (s : State) :
    DecodeRegisters src maxLen s (s.incompleted src valDst consDst) := by
  refine ⟨?_, ?_, ?_, ?_, ?_⟩
  all_goals simp [State.incompleted, State.fed]
  all_goals decide

/-- If an encode answers, it turned the request away, or the contract holds, the bytes fit and its closed form is answered. -/
theorem encode_next {x : Word} {dst lenDst : Ref} {s t : State} (h : encodeUnsigned x dst lenDst s = .next t) :
    (dst = none ∧ t = s.report .invalidArgument) ∨
    ∃ d, dst = some d ∧ EncodeReady s d lenDst (encLen x) ∧ t = s.encoded x d lenDst := by
  cases dst with
  | none =>
    simp only [encodeUnsigned, Host.Outcome.next.injEq] at h
    exact .inl ⟨rfl, h.symm⟩
  | some d =>
    rw [encodeUnsigned_eq] at h
    cases hc : s.encodeContract d lenDst with
    | some r => simp [hc] at h
    | none =>
      simp only [hc] at h
      split at h
      · next hr =>
        simp only [Host.Outcome.next.injEq] at h
        exact .inr ⟨d, rfl, encodeReady_of_contract hc hr, h.symm⟩
      · cases h

/-- On a request that keeps the contract an encode answers its closed form. -/
theorem encode_of_ready {x : Word} {dst : Nat} {lenDst : Ref} {s : State} (h : EncodeReady s dst lenDst (encLen x)) :
    encodeUnsigned x (some dst) lenDst s = .next (s.encoded x dst lenDst) := by
  simp [encodeUnsigned_eq, encodeContract_of_ready h, h.room]

/-- If a decode answers, it turned the request away, or the contract holds and the source ends it or runs through the cap. -/
theorem decode_next {post : Word → Word} {src valDst consDst : Ref} {s t : State}
    (h : decodeWith post src valDst consDst s = .next t) :
    ((src = none ∨ valDst = none) ∧ t = s.report .invalidArgument) ∨
    ∃ a vd, src = some a ∧ valDst = some vd ∧ DecodeReady s a vd consDst ∧
      ((∃ k, Terminates s a k ∧ t = s.decoded post a vd consDst k) ∨
        (Unterminated s a ∧ t = s.incompleted a vd consDst)) := by
  cases src with
  | none =>
    cases valDst <;> simp only [decodeWith, Host.Outcome.next.injEq] at h <;> exact .inl ⟨.inl rfl, h.symm⟩
  | some a =>
    cases valDst with
    | none =>
      simp only [decodeWith, Host.Outcome.next.injEq] at h
      exact .inl ⟨.inr rfl, h.symm⟩
    | some vd =>
      refine .inr ⟨a, vd, rfl, rfl, ?_⟩
      rcases decodeWith_cases post s a vd consDst with ⟨r, -, e⟩ | ⟨hc, ⟨k, hk, e⟩ | ⟨hu, e⟩ | ⟨-, e⟩⟩
      · rw [e] at h
        cases h
      · rw [e] at h
        cases h
        exact ⟨decodeReady_of_contract hc, .inl ⟨k, hk, rfl⟩⟩
      · rw [e] at h
        cases h
        exact ⟨decodeReady_of_contract hc, .inr ⟨hu, rfl⟩⟩
      · rw [e] at h
        cases h

end Sys2Proof.Machine
end

