-- ==== Sys2Proof/Laws/PerInstr.lean ====
section
/-! SUPPORT. Statements made of every operation, one lemma per constructor. -/

namespace Sys2Proof.Laws.Selector

/-- The operation fixes the selector code: a request that decodes to it carries that code and no other (R52). -/
def Statement (i : Instr) : Prop := ∀ r : Request, decode r = i → r.op = opCode i

/-- R52's split, read backwards. -/
theorem code_of_bits (b : BitVec 2) :
    b = BitVec.ofNat 2 ((if b.getLsbD 1 then 2 else 0) + (if b.getLsbD 0 then 1 else 0)) := by
  revert b
  decide

theorem encu (value : Word) (dst lenDst : Ref) : Statement (.encu value dst lenDst) := by
  intro r h
  rw [code_of_bits r.op]
  unfold decode at h
  split at h <;> simp_all [opCode]

theorem decu (src valDst consDst : Ref) : Statement (.decu src valDst consDst) := by
  intro r h
  rw [code_of_bits r.op]
  unfold decode at h
  split at h <;> simp_all [opCode]

theorem encs (value : Word) (dst lenDst : Ref) : Statement (.encs value dst lenDst) := by
  intro r h
  rw [code_of_bits r.op]
  unfold decode at h
  split at h <;> simp_all [opCode]

theorem decs (src valDst consDst : Ref) : Statement (.decs src valDst consDst) := by
  intro r h
  rw [code_of_bits r.op]
  unfold decode at h
  split at h <;> simp_all [opCode]

end Sys2Proof.Laws.Selector
end

