-- ==== Sys2Proof/Tests/Slice0.lean ====
section
/-!
SUPPORT. Tests of one step each, with results from spec/95_test_vectors.md and the worked examples it transcribes, the
well-formedness smoke test, decode tests of requests written out from the spec, and a witness for every statement that has
hypotheses.
-/

namespace Sys2Proof.Tests

open Sys2Proof.Machine

/-! ### A small host -/

/-- The next state of a step, if it answers one. -/
def stateOf : Result → Option State
  | .next t => some t
  | .fault _ => none
  | .refused _ => none

theorem next_of_any {r : Result} {p : State → Bool} (h : (stateOf r).any p = true) : ∃ t, r = .next t ∧ p t = true := by
  cases r with
  | next t => exact ⟨t, rfl, h⟩
  | fault e => cases h
  | refused e => cases h

/-- Cells for a run of bytes, none of them 0. -/
def cells (a : Nat) : List Byte → Memory
  | [] => []
  | b :: t => (a, b) :: cells (a + 1) t

/-- Buffers of 16, 10, 4, 1, 10, 10 and 8 bytes, the last of them a device; a count object and a 64-bit object inside the
first buffer, a 64-bit object over a count object, and objects apart from everything. -/
def host : State :=
  { State.reset with
    bufs := [⟨100, 16, .plain⟩, ⟨200, 10, .plain⟩, ⟨300, 4, .plain⟩, ⟨400, 1, .plain⟩, ⟨500, 10, .plain⟩,
             ⟨520, 10, .plain⟩, ⟨540, 8, .device⟩]
    mem := cells 200 [0xAC#8, 0x02#8, 0xEE#8] ++ (cells 300 [0x80#8, 0x80#8, 0x80#8, 0x80#8] ++ (cells 400 [0x7F#8] ++
      (cells 500 [0xFF#8, 0xFF#8, 0xFF#8, 0xFF#8, 0xFF#8, 0xFF#8, 0xFF#8, 0xFF#8, 0xFF#8, 0x7F#8] ++
        cells 520 [0x80#8, 0x80#8, 0x80#8, 0x80#8, 0x80#8, 0x80#8, 0x80#8, 0x80#8, 0x80#8, 0x80#8])))
    counts := [⟨104, 4, 0⟩, ⟨600, 4, 10⟩, ⟨604, 4, 5⟩]
    values := [⟨102, 2, 0#64⟩, ⟨606, 8, 0#64⟩, ⟨700, 8, 0xAAAAAAAAAAAAAAAA#64⟩] }

/-! ### Two tests an operation -/

/-- VE21 (S12 corrected): ten bytes, the last 01, in a buffer of exactly ten; the count is 10. -/
theorem test_encu_max_value :
    (stateOf (exec (.encu 0xFFFFFFFFFFFFFFFF#64 (some 200) (some 600)) host)).map
      (fun t => (t.mem.bytes 200 10, t.countVal 600, t.status)) =
    some ([0xFF#8, 0xFF#8, 0xFF#8, 0xFF#8, 0xFF#8, 0xFF#8, 0xFF#8, 0xFF#8, 0xFF#8, 0x01#8], some 10, some .ok) := by
  decide +kernel

/-- S4, VX3: 300 is AC 02; the byte after it stays; no count is reported. -/
theorem test_encu_300_without_count :
    (stateOf (exec (.encu 300#64 (some 520) none) host)).map (fun t => (t.mem.bytes 520 3, t.counts, t.status)) =
    some ([0xAC#8, 0x02#8, 0x80#8], host.counts, some .ok) := by decide +kernel

/-- VD16: overflow bits ignored; the value is 2^64 - 1, consumed 10. -/
theorem test_decu_overflow_bits :
    (stateOf (exec (.decu (some 500) (some 700) (some 600)) host)).map
      (fun t => (t.valueVal 700, t.countVal 600, t.status)) =
    some (some 0xFFFFFFFFFFFFFFFF#64, some 10, some .ok) := by decide +kernel

/-- VX10: ten continuation bytes are INCOMPLETE_STREAM, the source unchanged. -/
theorem test_decu_incomplete :
    (stateOf (exec (.decu (some 520) (some 700) (some 600)) host)).map (fun t => (t.mem, t.status)) =
    some (host.mem, some .incompleteStream) := by decide +kernel

/-- VS13: -123456789 is A9 B4 DE 75. -/
theorem test_encs_negative :
    (stateOf (exec (.encs (-123456789#64) (some 100) (some 600)) host)).map
      (fun t => (t.mem.bytes 100 4, t.countVal 600, t.status)) =
    some ([0xA9#8, 0xB4#8, 0xDE#8, 0x75#8], some 4, some .ok) := by decide +kernel

/-- VX4: an ABSENT destination is INVALID_ARGUMENT and the count keeps its marker. -/
theorem test_encs_absent_destination :
    (stateOf (exec (.encs (-1#64) none (some 600)) host)).map (fun t => (t.countVal 600, t.mem, t.status)) =
    some (some 10, host.mem, some .invalidArgument) := by decide +kernel

/-- Section 2.4, mismatched use: DECS on VD16's bytes gives -2^63, consumed 10. -/
theorem test_decs_minimum :
    (stateOf (exec (.decs (some 500) (some 700) (some 600)) host)).map
      (fun t => (t.valueVal 700, t.countVal 600, t.status)) =
    some (some 0x8000000000000000#64, some 10, some .ok) := by decide +kernel

/-- VX9 read with DECS (R94): an ABSENT value destination comes before an unterminated source. -/
theorem test_decs_absent_value_first :
    (stateOf (exec (.decs (some 520) none (some 600)) host)).map (fun t => (t.countVal 600, t.status)) =
    some (some 10, some .invalidArgument) := by decide +kernel

/-! ### Zig-zag and stream values from the vectors -/

/-- VZ13, VZ19, VZ21. -/
theorem test_zigzag_vectors :
    zzenc (-150#64) = 299#64 ∧ zzdec 299#64 = -150#64 ∧ zzenc 0xBFFFFFFFFFFFFFFF#64 = 0x8000000000000001#64 ∧
      zzdec 0xFFFFFFFFFFFFFFFF#64 = 0x8000000000000000#64 := by decide

/-- VE27, VD6 and VD17. -/
theorem test_stream_vectors :
    canonical 0x0123456789ABCDEF#64 = [0xEF#8, 0x9B#8, 0xAF#8, 0xCD#8, 0xF8#8, 0xAC#8, 0xD1#8, 0x91#8, 0x01#8] ∧
    streamValue [0xEF#8, 0x9B#8, 0xAF#8, 0xCD#8, 0xF8#8, 0xAC#8, 0xD1#8, 0x91#8, 0x01#8] = 0x0123456789ABCDEF#64 ∧
    streamValue [0xFF#8, 0xFF#8, 0xFF#8, 0xFF#8, 0xFF#8, 0xFF#8, 0xFF#8, 0xFF#8, 0xFF#8, 0x02#8]
      = 0x7FFFFFFFFFFFFFFF#64 := by decide +kernel

/-! ### Well-formedness: each check refuses an ill-formed term -/

theorem test_wf_refuses_buffer_at_top :
    WellFormed 8 (.encu 1#64 (some 247) none) = false ∧ WellFormed 8 (.encs 1#64 (some 247) none) = false ∧
    WellFormed 8 (.decu (some 247) (some 3) none) = false ∧ WellFormed 8 (.decs (some 247) (some 3) none) = false ∧
    WellFormed 8 (.encu 1#64 (some 246) none) = true := by decide

theorem test_wf_refuses_scalar_outside :
    WellFormed 8 (.encu 1#64 none (some 256)) = false ∧ WellFormed 8 (.encs 1#64 none (some 256)) = false ∧
    WellFormed 8 (.decu none (some 256) none) = false ∧ WellFormed 8 (.decu none none (some 256)) = false ∧
    WellFormed 8 (.decs none (some 256) none) = false ∧ WellFormed 8 (.decs none none (some 256)) = false ∧
    WellFormed 8 (.decs none none (some 255)) = true := by decide

/-! ### Decoding requests written out from the spec (R33, R52; the fields of P1 and P2) -/

theorem test_decode_encu :
    decode { op := 0b00#2, valueIn := 0x000000000000012C#64, dst := ⟨true, 200⟩, lenDst := ⟨true, 600⟩,
             src := ⟨false, 0⟩, valDst := ⟨false, 0⟩, consDst := ⟨false, 0⟩ }
      = .encu 300#64 (some 200) (some 600) := by decide

theorem test_decode_decu :
    decode { op := 0b01#2, valueIn := 0#64, dst := ⟨false, 0⟩, lenDst := ⟨false, 0⟩,
             src := ⟨true, 200⟩, valDst := ⟨true, 700⟩, consDst := ⟨false, 600⟩ }
      = .decu (some 200) (some 700) none := by decide

theorem test_decode_encs :
    decode { op := 0b10#2, valueIn := 0x8000000000000000#64, dst := ⟨true, 201⟩, lenDst := ⟨true, 600⟩,
             src := ⟨true, 9⟩, valDst := ⟨true, 9⟩, consDst := ⟨true, 9⟩ }
      = .encs (BitVec.intMin 64) (some 201) (some 600) := by decide

theorem test_decode_decs :
    decode { op := 0b11#2, valueIn := 7#64, dst := ⟨true, 1⟩, lenDst := ⟨true, 2⟩,
             src := ⟨true, 201⟩, valDst := ⟨true, 700⟩, consDst := ⟨true, 600⟩ }
      = .decs (some 201) (some 700) (some 600) := by decide

/-- The four words of spec/opcode_table.json, other ports zero. -/
theorem test_decode_table_words :
    decodeTableWord 8 0 = some (.encu 0#64 none none) ∧ decodeTableWord 8 1 = some (.decu none none none) ∧
    decodeTableWord 8 2 = some (.encs 0#64 none none) ∧ decodeTableWord 8 3 = some (.decs none none none) := by decide

/-- The encoder writes those codes (R52). -/
theorem test_encode_codes :
    (encode (.encu 5#64 none none)).op = 0b00#2 ∧ (encode (.decu none none none)).op = 0b01#2 ∧
    (encode (.encs 5#64 none none)).op = 0b10#2 ∧ (encode (.decs none none none)).op = 0b11#2 := by decide

/-- A placed word is the next step: with every reference ABSENT it answers INVALID_ARGUMENT (R98). -/
theorem test_placed_word_runs :
    (stateOf (step (State.reset.withFetchWord 8 3))).map (fun t => (t.status, t.inputs)) =
      some (some .invalidArgument, []) := by decide

/-! ### Witnesses: every hypothesis of every statement can be met -/

theorem witness_step_runs : ∃ (s : State) (r : Request) (rest : List Input), s.inputs = .request r :: rest :=
  ⟨{ host with inputs := [.request (encode (.encu 1#64 (some 200) none)), .reset] }, _, _, rfl⟩

theorem witness_selector : ∃ r q t u : Request, r.op = 0b00#2 ∧ q.op = 0b01#2 ∧ t.op = 0b10#2 ∧ u.op = 0b11#2 :=
  ⟨tableRequest 8 0, tableRequest 8 1, tableRequest 8 2, tableRequest 8 3, by decide⟩

/-- Two requests that differ only in a field the operation does not read, of an encode and of a decode. -/
theorem witness_unread_fields :
    (∃ r q : Request, r ≠ q ∧ r.op = q.op ∧ r.op.getLsbD 0 = false ∧ r.valueIn = q.valueIn ∧ r.dst.ref = q.dst.ref ∧
      r.lenDst.ref = q.lenDst.ref) ∧
    (∃ r q : Request, r ≠ q ∧ r.op = q.op ∧ r.op.getLsbD 0 = true ∧ r.src.ref = q.src.ref ∧
      r.valDst.ref = q.valDst.ref ∧ r.consDst.ref = q.consDst.ref) :=
  ⟨⟨tableRequest 8 0, { tableRequest 8 0 with src := ⟨true, 5⟩ }, by decide⟩,
   ⟨tableRequest 8 1, { tableRequest 8 1 with valueIn := 5#64, consDst := ⟨false, 7⟩ }, by decide⟩⟩

/-- The greatest length in a buffer of exactly ten bytes, with a count. -/
theorem witness_encode_ready_max : EncodeReady host 200 (some 600) (encLen 0xFFFFFFFFFFFFFFFF#64) :=
  encodeReady_of_contract (by decide +kernel) (by decide +kernel)

/-- The least length in a buffer of one byte, the count declined. -/
theorem witness_encode_ready_min : EncodeReady host 400 none (encLen 0x7F#64) :=
  encodeReady_of_contract (by decide +kernel) (by decide +kernel)

/-- The same for ENCS: -2^63 and -64 stand at the two ends. -/
theorem witness_encs_ready :
    EncodeReady host 200 (some 600) (encLen (zzenc 0x8000000000000000#64)) ∧
    EncodeReady host 400 none (encLen (zzenc (-64#64))) :=
  ⟨encodeReady_of_contract (by decide +kernel) (by decide +kernel),
   encodeReady_of_contract (by decide +kernel) (by decide +kernel)⟩

theorem witness_decode_ready : DecodeReady host 200 700 (some 600) ∧ DecodeReady host 400 700 none :=
  ⟨decodeReady_of_contract (by decide +kernel), decodeReady_of_contract (by decide +kernel)⟩

/-- Terminating bytes at index 0 (the last byte of its buffer), 1, and 9 = MAXLEN - 1. -/
theorem witness_terminates : Terminates host 400 0 ∧ Terminates host 200 1 ∧ Terminates host 500 9 ∧
    DecodeReady host 500 700 (some 600) :=
  ⟨⟨by decide, by decide, by decide, by decide⟩, ⟨by decide, by decide, by decide, by decide⟩,
   ⟨by decide +kernel, by decide +kernel, by decide +kernel, by decide +kernel⟩,
   decodeReady_of_contract (by decide +kernel)⟩

theorem witness_unterminated : Unterminated host 520 ∧ DecodeReady host 520 700 (some 600) :=
  ⟨⟨by decide +kernel, by decide +kernel⟩, decodeReady_of_contract (by decide +kernel)⟩

theorem witness_absent_references :
    ∃ src valDst : Ref, (src = none ∨ valDst = none) ∧ src ≠ valDst := ⟨some 520, none, .inr rfl, by decide⟩

/-- Each encode answers with a present and with an ABSENT destination. -/
theorem witness_encodes_answer :
    (∃ t, exec (.encu 128#64 (some 100) none) host = .next t ∧ (t.status == some .ok) = true) ∧
    (∃ t, exec (.encu 128#64 none (some 600)) host = .next t ∧ (t.status == some .invalidArgument) = true) ∧
    (∃ t, exec (.encs 128#64 (some 100) none) host = .next t ∧ (t.status == some .ok) = true) ∧
    (∃ t, exec (.encs 128#64 none (some 600)) host = .next t ∧ (t.status == some .invalidArgument) = true) :=
  ⟨next_of_any (by decide +kernel), next_of_any (by decide +kernel), next_of_any (by decide +kernel),
   next_of_any (by decide +kernel)⟩

/-- Each decode answers each of the three statuses. -/
theorem witness_decodes_answer :
    (∃ t, exec (.decu (some 200) (some 700) none) host = .next t ∧ (t.status == some .ok) = true) ∧
    (∃ t, exec (.decu (some 520) (some 700) none) host = .next t ∧ (t.status == some .incompleteStream) = true) ∧
    (∃ t, exec (.decu (some 520) none none) host = .next t ∧ (t.status == some .invalidArgument) = true) ∧
    (∃ t, exec (.decs (some 200) (some 700) none) host = .next t ∧ (t.status == some .ok) = true) ∧
    (∃ t, exec (.decs (some 520) (some 700) none) host = .next t ∧ (t.status == some .incompleteStream) = true) ∧
    (∃ t, exec (.decs none (some 700) none) host = .next t ∧ (t.status == some .invalidArgument) = true) :=
  ⟨next_of_any (by decide +kernel), next_of_any (by decide +kernel), next_of_any (by decide +kernel),
   next_of_any (by decide +kernel), next_of_any (by decide +kernel), next_of_any (by decide +kernel)⟩

/-- A taken-up request of each operation; of the decodes, one whose source ends and one whose source runs through the cap. -/
theorem witness_registers_after :
    (∃ t, exec (.encu 300#64 (some 200) (some 600)) host = .next t ∧ (t.n == 2#4) = true) ∧
    (∃ t, exec (.encs 300#64 (some 200) (some 600)) host = .next t ∧ (t.n == 2#4) = true) ∧
    (Terminates host 200 1 ∧ ∃ t, exec (.decu (some 200) (some 700) none) host = .next t ∧ (t.i == 2#4) = true) ∧
    (Unterminated host 520 ∧ ∃ t, exec (.decs (some 520) (some 700) none) host = .next t ∧ (t.i == 10#4) = true) :=
  ⟨next_of_any (by decide +kernel), next_of_any (by decide +kernel),
   ⟨⟨by decide, by decide, by decide, by decide⟩, next_of_any (by decide +kernel)⟩,
   ⟨⟨by decide +kernel, by decide +kernel⟩, next_of_any (by decide +kernel)⟩⟩

/-- Addresses next to the bytes read: the one before the source and the one after the last byte read. -/
theorem witness_only_bytes_read :
    (∃ t, exec (.decu (some 200) (some 700) none) host = .next t ∧
      decide (199 < 200 ∧ 200 + t.i.toNat ≤ 202 ∧ t.status ≠ some .invalidArgument) = true) ∧
    (∃ t, exec (.decs (some 200) (some 700) none) host = .next t ∧
      decide (199 < 200 ∧ 200 + t.i.toNat ≤ 202 ∧ t.status ≠ some .invalidArgument) = true) :=
  ⟨next_of_any (by decide +kernel), next_of_any (by decide +kernel)⟩

/-- A tenth byte with overflow bits, and one without them that agrees in bit 0. -/
theorem witness_overflow_bits :
    isCont 0x01#8 = false ∧ (0x01#8).getLsbD 0 = (host.mem.get (500 + (maxLen - 1))).getLsbD 0 ∧
    host.mem.get (500 + (maxLen - 1)) ≠ 0x01#8 ∧
    (∃ t, exec (.decu (some 500) (some 700) none) host = .next t ∧
      decide (t.status = some .ok ∧ t.i.toNat = maxLen) = true) ∧
    (∃ t, exec (.decs (some 500) (some 700) none) host = .next t ∧
      decide (t.status = some .ok ∧ t.i.toNat = maxLen) = true) :=
  ⟨by decide, by decide +kernel, by decide +kernel, next_of_any (by decide +kernel), next_of_any (by decide +kernel)⟩

/-- Streams of two bytes and of one; lengths at both ends of the table; a stream that is not empty. -/
theorem witness_stream_lengths :
    2 ≤ (canonical 128#64).length ∧ (canonical 127#64).length = 1 ∧ encLen 0x7F#64 = 1 ∧ encLen 0x80#64 = 2 ∧
    encLen 0x7FFFFFFFFFFFFFFF#64 = 9 ∧ encLen 0x8000000000000000#64 = 10 ∧ ([0x80#8, 0x00#8] : List Byte) ≠ [] := by
  decide +kernel

theorem witness_stream_begins_another : canonical 300#64 = canonical 300#64 ++ [] := by decide +kernel

/-- The canonical bytes of 300 stand at 200, another byte after them. -/
theorem witness_canonical_bytes :
    DecodeReady host 200 700 (some 600) ∧ encLen 300#64 ≤ host.room 200 ∧
    ∀ j, j < encLen 300#64 → host.mem.get (200 + j) = streamByte 300#64 j :=
  ⟨decodeReady_of_contract (by decide +kernel), by decide +kernel, by decide +kernel⟩

theorem witness_signed_sides : (0 : Int) < (1#64).toInt ∧ (-1#64).toInt < 0 := by decide

/-- One buffer that keeps both contracts, the greatest value of each kind included. -/
theorem witness_round_trips :
    EncodeReady host 200 (some 604) (encLen 0xFFFFFFFFFFFFFFFF#64) ∧
    EncodeReady host 200 (some 604) (encLen (zzenc 0x8000000000000000#64)) ∧ DecodeReady host 200 700 (some 600) :=
  ⟨encodeReady_of_contract (by decide +kernel) (by decide +kernel),
   encodeReady_of_contract (by decide +kernel) (by decide +kernel), decodeReady_of_contract (by decide +kernel)⟩

/-- A destination one byte too short, and a source that ends after four continuation bytes. -/
theorem witness_broken_capacity :
    EncodeReady host 400 none 0 ∧ host.room 400 + 1 = encLen 128#64 ∧ host.room 400 + 1 = encLen (zzenc 64#64) ∧
    DecodeReady host 300 700 none ∧ host.room 300 < maxLen ∧
    ∀ j, j < host.room 300 → isCont (host.mem.get (300 + j)) = true :=
  ⟨encodeReady_of_contract (by decide +kernel) (by decide +kernel), by decide +kernel, by decide +kernel,
   decodeReady_of_contract (by decide +kernel), by decide +kernel, by decide +kernel⟩

/-- A device; a count object inside a buffer (for an encode and, beside a value apart from it, for a decode); a 64-bit object
inside a buffer, beside a count reference to no object; two objects that overlap. -/
theorem witness_device_and_overlap :
    host.isDevice 540 = true ∧
    (host.isDevice 100 = false ∧ host.countAt 104 = some ⟨104, 4, 0⟩ ∧
      (host.bufferSpan 100).apart (CountObj.span ⟨104, 4, 0⟩) = false) ∧
    (host.valueAt 700 = some ⟨700, 8, 0xAAAAAAAAAAAAAAAA#64⟩ ∧
      (host.bufferSpan 100).apart (ValueObj.span ⟨700, 8, 0xAAAAAAAAAAAAAAAA#64⟩) = true) ∧
    (host.valueAt 102 = some ⟨102, 2, 0#64⟩ ∧ host.countAt 601 = none ∧
      (host.bufferSpan 100).apart (ValueObj.span ⟨102, 2, 0#64⟩) = false) ∧
    (host.isDevice 200 = false ∧ host.valueAt 606 = some ⟨606, 8, 0#64⟩ ∧ host.countAt 604 = some ⟨604, 4, 5⟩ ∧
      (ValueObj.span ⟨606, 8, 0#64⟩).apart (CountObj.span ⟨604, 4, 5⟩) = false) := by decide +kernel

theorem witness_missing_objects :
    host.isDevice 200 = false ∧ host.countAt 601 = none ∧ host.valueAt 701 = none ∧
    host.valueAt 700 = some ⟨700, 8, 0xAAAAAAAAAAAAAAAA#64⟩ ∧
    (host.bufferSpan 200).apart (ValueObj.span ⟨700, 8, 0xAAAAAAAAAAAAAAAA#64⟩) = true := by decide +kernel

theorem witness_address_space :
    WellFormed 8 (.encu 300#64 (some 200) none) = true ∧ (2 : Nat) ^ 8 ≤ 256 ∧
    ∃ t, exec (.encu 300#64 (some 200) none) host = .next t ∧ (t.status == some .ok) = true :=
  ⟨by decide, by decide, next_of_any (by decide +kernel)⟩

/-- States that differ in working registers and, for the first statement, in the last status too. -/
theorem witness_views :
    (∃ s t : State, s ≠ t ∧ s.status ≠ t.status ∧ s.idleView = t.idleView) ∧
    (∃ s t : State, s ≠ t ∧ s.hostView = t.hostView) :=
  ⟨⟨host, { host with acc := 5#64, status := some .ok }, by decide +kernel⟩,
   ⟨host, { host with v := 5#64, n := 3#4 }, by decide +kernel⟩⟩

theorem witness_repeat :
    host.mem.wf = true ∧
    (∃ t, exec (.encu 300#64 (some 100) (some 600)) host = .next t ∧ (t.status == some .ok) = true) ∧
    (∃ t, exec (.decu (some 520) (some 700) (some 600)) host = .next t ∧
      (t.status == some .incompleteStream) = true) :=
  ⟨by decide +kernel, next_of_any (by decide +kernel), next_of_any (by decide +kernel)⟩

/-- An encode into one buffer and a decode from another, with different objects. -/
theorem witness_disjoint :
    host.DisjointStorage (.encu 300#64 (some 100) (some 604)) (.decu (some 200) (some 700) (some 600)) ∧
    (∃ t, exec (.encu 300#64 (some 520) (some 604)) host = .next t ∧ (t.status == some .ok) = true) ∧
    host.DisjointStorage (.encu 300#64 (some 520) (some 604)) (.decu (some 200) (some 700) (some 600)) ∧
    (∃ t, exec (.decu (some 200) (some 700) (some 600)) host = .next t ∧ (t.status == some .ok) = true) :=
  ⟨by unfold State.DisjointStorage; decide +kernel, next_of_any (by decide +kernel),
   by unfold State.DisjointStorage; decide +kernel, next_of_any (by decide +kernel)⟩

/-- An incomplete decode beside one that ends. -/
theorem witness_disjoint_incomplete :
    host.DisjointStorage (.decu (some 520) (some 700) (some 600)) (.decs (some 200) (some 606) none) ∧
    (∃ t, exec (.decu (some 520) (some 700) (some 600)) host = .next t ∧
      (t.status == some .incompleteStream) = true) ∧
    (∃ t, exec (.decs (some 200) (some 606) none) host = .next t ∧ (t.status == some .ok) = true) :=
  ⟨by unfold State.DisjointStorage; decide +kernel, next_of_any (by decide +kernel), next_of_any (by decide +kernel)⟩

/-- The invariant holds of a state with storage, and its next step answers. -/
theorem witness_invariant :
    ({ host with inputs := [.request (encode (.encu 300#64 (some 520) none))] } : State).Inv ∧
    ∃ t, step { host with inputs := [.request (encode (.encu 300#64 (some 520) none))] } = .next t ∧
      (t.status == some .ok) = true :=
  ⟨⟨by decide +kernel, by decide +kernel, by decide +kernel, by decide +kernel, by decide, by decide, by decide,
    by decide⟩, next_of_any (by decide +kernel)⟩

theorem witness_reset_input : ∃ (s : State) (rest : List Input), s.status ≠ none ∧ s.inputs = .reset :: rest :=
  ⟨{ host with status := some .ok, inputs := [.reset] }, [], by decide⟩

theorem witness_idle : ∃ s : State, s.inputs = [] ∧ s ≠ State.reset := ⟨host, by decide⟩

/-- An abandoned encode and an abandoned decode. -/
theorem witness_abandon :
    (∃ t, exec (decode (encode (.encs 1#64 (some 100) (some 600)))) host = .next t ∧ (t.status == some .ok) = true) ∧
    (∃ t, exec (decode (encode (.decs (some 200) (some 700) (some 600)))) host = .next t ∧
      (t.status == some .ok) = true) ∧
    ∃ (s : State) (r : Request) (rest : List Input), s.inputs = .abandon r :: rest ∧ { s with inputs := rest } = host :=
  ⟨next_of_any (by decide +kernel), next_of_any (by decide +kernel),
   ⟨{ host with inputs := [.abandon (encode (.encs 1#64 (some 100) (some 600)))] }, _, [], rfl, rfl⟩⟩

theorem witness_host_stores :
    (∃ (s : State) (a : Nat) (b : Byte), s.inputs = [.hostByte a b] ∧ 0 < s.room a ∧ s.isDevice a = false) ∧
    (∃ (s : State) (a k : Nat) (o : CountObj), s.inputs = [.hostCount a k] ∧ s.countAt a = some o) ∧
    (∃ (s : State) (a : Nat) (x : Word) (o : ValueObj), s.inputs = [.hostValue a x] ∧ s.valueAt a = some o) :=
  ⟨⟨{ host with inputs := [.hostByte 400 0#8] }, 400, 0#8, by decide +kernel⟩,
   ⟨{ host with inputs := [.hostCount 600 0] }, 600, 0, ⟨600, 4, 10⟩, by decide +kernel⟩,
   ⟨{ host with inputs := [.hostValue 700 1#64] }, 700, 1#64, ⟨700, 8, 0xAAAAAAAAAAAAAAAA#64⟩, by decide +kernel⟩⟩

end Sys2Proof.Tests
end

section
/-!
PROOFS. What a host sees of an operation's answer is fixed by the idle view of the state it starts from (10_state.md R10): an
operation is run on `s.idleView` as on `s`, and the closed forms it can answer (`encodeUnsigned_eq`, `decodeWith_cases`) are
compared. Every operation starts its own working registers afresh, so none of the others' content reaches them.
-/

namespace Sys2Proof.Machine

/-! ### What a host sees of an answer -/

/-- An answer with the working registers of its next state put aside. -/
def resultView : Result → Result
  | .next s => .next s.hostView
  | .fault e => .fault e
  | .refused e => .refused e

@[simp] theorem resultView_next (s : State) : resultView (.next s) = .next s.hostView := rfl
@[simp] theorem resultView_fault (e : Fault) : resultView (.fault e) = .fault e := rfl
@[simp] theorem resultView_refused (r : Refusal) : resultView (.refused r) = .refused r := rfl

/-- Steps a host cannot tell apart are those with one view. -/
theorem sameToHost_iff (r q : Result) : sameToHost r q ↔ resultView r = resultView q := by
  cases r <;> cases q <;> simp [sameToHost]

/-! ### The idle view keeps everything an operation reads -/

@[simp] theorem State.idleView_room (s : State) (a : Nat) : s.idleView.room a = s.room a := rfl

@[simp] theorem State.idleView_encodeContract (s : State) (dst : Nat) (lenDst : Ref) :
    s.idleView.encodeContract dst lenDst = s.encodeContract dst lenDst := rfl

@[simp] theorem State.idleView_decodeContract (s : State) (src valDst : Nat) (consDst : Ref) :
    s.idleView.decodeContract src valDst consDst = s.decodeContract src valDst consDst := rfl

theorem Terminates.idleView {s : State} {src k : Nat} (h : Terminates s src k) : Terminates s.idleView src k :=
  ⟨h.inCap, h.inRoom, h.before, h.last⟩

theorem Unterminated.idleView {s : State} {src : Nat} (h : Unterminated s src) : Unterminated s.idleView src :=
  ⟨h.inRoom, h.all⟩

theorem ShortSource.idleView {s : State} {src : Nat} (h : ShortSource s src) : ShortSource s.idleView src :=
  ⟨h.room, h.all⟩

/-! ### The closed forms a host sees are made of the idle view alone -/

theorem State.idleView_report_hostView (s : State) (st : Status) :
    (s.idleView.report st).hostView = (s.report st).hostView := rfl

theorem State.idleView_encoded_hostView (s : State) (x : Word) (dst : Nat) (lenDst : Ref) :
    (s.idleView.encoded x dst lenDst).hostView = (s.encoded x dst lenDst).hostView := by
  cases lenDst <;> rfl

theorem State.idleView_decoded_hostView (s : State) (post : Word → Word) (src valDst : Nat) (consDst : Ref) (k : Nat) :
    (s.idleView.decoded post src valDst consDst k).hostView = (s.decoded post src valDst consDst k).hostView := by
  cases consDst <;> rfl

theorem State.idleView_incompleted_hostView (s : State) (src valDst : Nat) (consDst : Ref) :
    (s.idleView.incompleted src valDst consDst).hostView = (s.incompleted src valDst consDst).hostView := by
  cases consDst <;> rfl

/-! ### Each operation answers alike on the idle view -/

theorem resultView_encodeUnsigned_idleView (x : Word) (dst lenDst : Ref) (s : State) :
    resultView (encodeUnsigned x dst lenDst s.idleView) = resultView (encodeUnsigned x dst lenDst s) := by
  cases dst with
  | none => exact congrArg Host.Outcome.next (s.idleView_report_hostView .invalidArgument)
  | some d =>
    rw [encodeUnsigned_eq, encodeUnsigned_eq, State.idleView_encodeContract]
    cases s.encodeContract d lenDst with
    | some r => rfl
    | none =>
      by_cases hroom : encLen x ≤ s.room d
      · simp [hroom, State.idleView_encoded_hostView]
      · simp [hroom]

theorem resultView_decodeWith_idleView (post : Word → Word) (src valDst consDst : Ref) (s : State) :
    resultView (decodeWith post src valDst consDst s.idleView) = resultView (decodeWith post src valDst consDst s) := by
  match src, valDst with
  | none, none | none, some _ | some _, none => exact congrArg Host.Outcome.next (s.idleView_report_hostView .invalidArgument)
  | some a, some vd =>
    have hidle := s.idleView_decodeContract a vd consDst
    rcases decodeWith_cases post s a vd consDst with ⟨r, hr, e⟩ | ⟨hc, ⟨k, hk, e⟩ | ⟨hu, e⟩ | ⟨hs, e⟩⟩
    · rw [e, decodeWith_of_contract (hidle.trans hr)]
    · rw [e, decodeWith_of_terminates (hidle.trans hc) hk.idleView, resultView_next, resultView_next,
        State.idleView_decoded_hostView]
    · rw [e, decodeWith_of_unterminated (hidle.trans hc) hu.idleView, resultView_next, resultView_next,
        State.idleView_incompleted_hostView]
    · rw [e, decodeWith_of_short (hidle.trans hc) hs.idleView]

theorem resultView_exec_idleView (i : Instr) (s : State) : resultView (exec i s.idleView) = resultView (exec i s) := by
  cases i with
  | encu value dst lenDst => exact resultView_encodeUnsigned_idleView value dst lenDst s
  | decu src valDst consDst => exact resultView_decodeWith_idleView (fun x => x) src valDst consDst s
  | encs value dst lenDst => exact resultView_encodeUnsigned_idleView (zzenc value) dst lenDst s
  | decs src valDst consDst => exact resultView_decodeWith_idleView zzdec src valDst consDst s

/-- Settles O40: both runs have the view of the run on their common idle view. -/
theorem transactionsKeepNothing : Obligations.TransactionsKeepNothing := by
  intro i s t hview
  rw [sameToHost_iff]
  calc resultView (exec i s)
      = resultView (exec i s.idleView) := (resultView_exec_idleView i s).symm
    _ = resultView (exec i t.idleView) := by rw [hview]
    _ = resultView (exec i t) := resultView_exec_idleView i t

end Sys2Proof.Machine
end

section
/-!
PROOFS. The encoding of requests and of streams (30_encoding.md). Facts about the canonical stream of every value are proved
along the encoder's loop, by `shiftOut_induction`: a value up to 0x7F is its own last byte, a larger one is a continuation
byte and the stream of what `v >>u 7` leaves. Prefix-freeness rests on two of them: continuation bits fix the length of a
stream, and the bytes fix the value.
-/

namespace Sys2Proof.Machine

/-! ### The selector -/

/-- Settles O3: the two selector bits of each of the four codes pick their branch of the decoder. -/
theorem selectorChoosesOperation : Obligations.SelectorChoosesOperation := by
  intro r
  refine ⟨?encu, ?decu, ?encs, ?decs⟩
  all_goals
    intro hop
    simp [decode, hop]

/-! ### Lengths -/

/-- Settles O21: by R45's table, nine bytes hold the 63-bit values, and 2^64 - 1 is not one of them. -/
theorem greatestLengthIsMaxlen : Obligations.GreatestLengthIsMaxlen := by
  have nine (v : Word) : encLen v ≤ 9 ↔ v.toNat < 2 ^ 63 := encLen_le_iff v (by decide)
  refine ⟨le_antisymm (encLen_le_maxLen _) ?_, encLen_le_maxLen, nine⟩
  exact Nat.lt_of_not_le fun h => absurd ((nine _).1 h) (by decide)

/-! ### Induction along the encoder's loop -/

theorem toNat_shiftOut_lt {v : Word} (h : 0x7F#64 < v) : (v >>> groupBits).toNat < v.toNat := by
  have := toNat_gt_of_gt h
  rw [toNat_shiftOut]
  omega

theorem shiftOut_ne_zero {v : Word} (h : 0x7F#64 < v) : v >>> groupBits ≠ 0#64 := by
  intro h0
  have hv := toNat_gt_of_gt h
  have : v.toNat / 128 = 0 := by rw [← toNat_shiftOut, h0]; rfl
  omega

/-- What holds of the values the loop stops at (R58), and of a larger value when it holds of the value shifted out, holds of
every value. -/
theorem shiftOut_induction {P : Word → Prop} (small : ∀ v, ¬ 0x7F#64 < v → P v)
    (big : ∀ v, 0x7F#64 < v → P (v >>> groupBits) → P v) (v : Word) : P v :=
  if h : 0x7F#64 < v then big v h (shiftOut_induction small big (v >>> groupBits)) else small v h
termination_by v.toNat
decreasing_by exact toNat_shiftOut_lt h

/-! ### The shape of a canonical stream -/

theorem canonical_getElem (v : Word) (j : Nat) (h : j < (canonical v).length) : (canonical v)[j] = streamByte v j := by
  simp [canonical]

theorem isCont_canonical_getElem (v : Word) (j : Nat) (h : j < (canonical v).length) :
    isCont (canonical v)[j] = decide (j + 1 < encLen v) := by
  rw [canonical_getElem, isCont_streamByte]

theorem canonical_ne_nil (v : Word) : canonical v ≠ [] :=
  List.ne_nil_of_length_pos (canonical_length v ▸ encLen_pos v)

theorem eq_zero_of_lastByte {v : Word} (h : ¬ 0x7F#64 < v) (h0 : lastByte v = 0#8) : v = 0#64 := by
  have hv := toNat_le_of_not_gt h
  have h8 : v.toNat % 256 = 0 := by simpa [lastByte] using congrArg BitVec.toNat h0
  exact BitVec.eq_of_toNat_eq (by simp; omega)

/-- Only the stream of 0 ends in 0x00 (R45): shifting out never reaches 0 from a value above 0x7F. -/
theorem canonical_getLast?_ne_zero (v : Word) : v ≠ 0#64 → (canonical v).getLast? ≠ some 0#8 := by
  induction v using shiftOut_induction with
  | small v h =>
    intro hv hlast
    rw [canonical_of_small h] at hlast
    exact hv (eq_zero_of_lastByte h (by simpa using hlast))
  | big v h ih =>
    intro _
    rw [canonical_of_big h, List.getLast?_cons_of_ne_nil (canonical_ne_nil _)]
    exact ih (shiftOut_ne_zero h)

/-- Settles O19: the length and the continuation bits from the stream's bytes, the last byte by induction along the loop. -/
theorem canonicalStreamShape : Obligations.CanonicalStreamShape := by
  intro v
  simp only [canonical_length]
  refine ⟨encLen_pos v, encLen_le_maxLen v, fun j h => isCont_canonical_getElem v j (by simpa using h), fun h2 => ?_⟩
  exact canonical_getLast?_ne_zero v (by rintro rfl; exact absurd h2 (by decide))

/-! ### The value a canonical stream denotes -/

theorem toNat_and_dataMask (b : Byte) : (b &&& dataMask).toNat = b.toNat % 128 := by
  revert b
  decide

/-- The continuation flag is no part of a byte's data (R40). -/
theorem dataMask_of_flagged (b : Byte) : (b &&& dataMask ||| contFlag) &&& dataMask = b &&& dataMask := by
  revert b
  decide

theorem lastByte_data (v : Word) : (lastByte v &&& dataMask).toNat = v.toNat % 128 := by
  rw [toNat_and_dataMask, lastByte, BitVec.toNat_setWidth]
  omega

theorem contByte_data (v : Word) : (contByte v &&& dataMask).toNat = v.toNat % 128 := by
  rw [contByte, ← setWidth_and_mask, dataMask_of_flagged]
  exact lastByte_data v

theorem groupSum_canonical (v : Word) : groupSum (canonical v) = v.toNat := by
  induction v using shiftOut_induction with
  | small v h =>
    have := toNat_le_of_not_gt h
    rw [canonical_of_small h, groupSum, lastByte_data, groupSum]
    omega
  | big v h ih =>
    rw [canonical_of_big h, groupSum, contByte_data, ih, toNat_shiftOut]
    omega

/-- Assembling the canonical bytes gives the value back (R42, R43). -/
theorem streamValue_canonical (v : Word) : streamValue (canonical v) = v := by
  simp [streamValue, groupSum_canonical]

theorem canonical_injective : Function.Injective canonical :=
  Function.LeftInverse.injective streamValue_canonical

/-! ### Prefixes -/

/-- A stream that begins with the stream of `v` is no longer: the last byte of that one, whose bit 7 is clear, ends it. -/
theorem encLen_le_of_prefix {v w : Word} {rest : List Byte} (h : canonical w = canonical v ++ rest) :
    encLen w ≤ encLen v := by
  have hv := encLen_pos v
  have hj : encLen v - 1 < (canonical v).length := by rw [canonical_length]; omega
  have hjw : encLen v - 1 < (canonical w).length := by rw [h, List.length_append]; omega
  have hbyte : (canonical w)[encLen v - 1] = (canonical v)[encLen v - 1] := by simp only [h, List.getElem_append_left hj]
  have hcont := congrArg isCont hbyte
  rw [isCont_canonical_getElem, isCont_canonical_getElem, decide_eq_decide] at hcont
  omega

/-- Settles O23: continuation bits fix where a stream ends, so nothing follows, and its bytes fix the value. -/
theorem canonicalStreamsArePrefixFree : Obligations.CanonicalStreamsArePrefixFree := by
  intro v w rest h
  have hlen : encLen w = encLen v + rest.length := by simpa using congrArg List.length h
  have hrest : rest = [] := List.length_eq_zero_iff.1 (by have := encLen_le_of_prefix h; omega)
  rw [hrest, List.append_nil] at h
  exact (canonical_injective h).symm

end Sys2Proof.Machine
end

section
/-!
PROOFS. ENCU and its inverse (40_encode_unsigned.md). The encode's closed form is answered on every request that keeps the
contract (`encode_of_ready`), and leaves the canonical bytes at the destination. A decode reads canonical bytes wherever they
stand (`decodeWith_of_holdsCanonical`), and an encode leaves the decode's side of the contract as it was, so the two compose
(`encode_decode_roundTrip`) for whatever the decode applies to its accumulator.
-/

namespace Sys2Proof.Machine

/-! ### The encode's answer -/

/-- Settles O8: the closed form is answered, and has the effect. -/
theorem encuWritesCanonicalStream : Obligations.EncuWritesCanonicalStream := by
  intro x dst lenDst s hready
  exact ⟨s.encoded x dst lenDst, encode_of_ready hready, encoded_effect x dst lenDst s⟩

theorem encodeUnsigned_absent (x : Word) (lenDst : Ref) (s : State) :
    encodeUnsigned x none lenDst s = .next (s.report .invalidArgument) := rfl

/-- Settles O10: both encodes test the destination before they look at anything else. -/
theorem absentDestinationIsInvalid : Obligations.AbsentDestinationIsInvalid := by
  intro x lenDst s
  exact ⟨encodeUnsigned_absent x lenDst s, encodeUnsigned_absent (zzenc x) lenDst s⟩

/-! ### Canonical bytes in memory -/

/-- The canonical bytes of a value stand at an address, inside its buffer. -/
structure HoldsCanonical (s : State) (src : Nat) (v : Word) : Prop where
  inRoom : encLen v ≤ s.room src
  bytes : ∀ j, j < encLen v → s.mem.get (src + j) = streamByte v j

theorem HoldsCanonical.bytes_eq {s : State} {src : Nat} {v : Word} (h : HoldsCanonical s src v) :
    s.mem.bytes src (encLen v) = canonical v :=
  List.map_congr_left fun j hj => h.bytes j (List.mem_range.1 hj)

/-- The last canonical byte is the first terminating one (R41). -/
theorem HoldsCanonical.terminates {s : State} {src : Nat} {v : Word} (h : HoldsCanonical s src v) :
    Terminates s src (encLen v - 1) := by
  have hpos := encLen_pos v
  have hcap := encLen_le_maxLen v
  have hroom := h.inRoom
  refine ⟨by omega, by omega, fun j hj => ?_, ?_⟩
  · rw [h.bytes j (by omega), isCont_streamByte]
    exact decide_eq_true (by omega)
  · rw [h.bytes _ (by omega), isCont_streamByte]
    exact decide_eq_false (by omega)

/-- A decode reads canonical bytes back: their value and their number (R78). -/
theorem decodeWith_of_holdsCanonical (post : Word → Word) {s : State} {src valDst : Nat} {consDst : Ref} {v : Word}
    (hready : DecodeReady s src valDst consDst) (h : HoldsCanonical s src v) :
    ∃ u, decodeWith post (some src) (some valDst) consDst s = .next u ∧
      DecodeEffect (post v) valDst consDst (encLen v - 1) s u := by
  have hvalue : streamValue (s.mem.bytes src (encLen v - 1 + 1)) = v := by
    rw [Nat.sub_add_cancel (encLen_pos v), h.bytes_eq, streamValue_canonical]
  have heffect := decoded_effect post src valDst consDst (encLen v - 1) s
  rw [hvalue] at heffect
  exact ⟨_, decodeWith_of_terminates (decodeContract_of_ready hready) h.terminates, heffect⟩

/-! ### What an encode leaves for a decode -/

section
variable {x : Word} {dst : Nat} {lenDst : Ref} {s t : State}

theorem EncodeEffect.holdsCanonical (h : EncodeEffect x dst lenDst s t) (hroom : encLen x ≤ s.room dst) :
    HoldsCanonical t dst x := by
  refine ⟨State.room_congr h.bufs dst ▸ hroom, fun j hj => ?_⟩
  rw [h.bytes, if_pos (by omega), Nat.add_sub_cancel_left]

/-- A count object keeps its place through an encode; only its content may change. -/
theorem EncodeEffect.countAt_span (h : EncodeEffect x dst lenDst s t) {a : Nat} {c : CountObj} (hc : s.countAt a = some c) :
    ∃ d, t.countAt a = some d ∧ d.span = c.span := by
  by_cases ha : lenDst = some a
  · exact ⟨{ c with val := encLen x }, by rw [h.counts, if_pos ha, hc]; rfl, rfl⟩
  · exact ⟨c, by rw [h.counts, if_neg ha, hc], rfl⟩

/-- An encode leaves the storage a decode needs. -/
theorem EncodeEffect.decodeReady (h : EncodeEffect x dst lenDst s t) {src valDst : Nat} {consDst : Ref}
    (hready : DecodeReady s src valDst consDst) : DecodeReady t src valDst consDst := by
  obtain ⟨y, hy, hsrc, hcount⟩ := hready.value
  have hspan := State.bufferSpan_congr h.bufs src
  refine ⟨State.isDevice_congr h.bufs src ▸ hready.plain, y, State.valueAt_congr h.values valDst ▸ hy, hspan ▸ hsrc, ?_⟩
  intro a ha
  obtain ⟨c, hc, hsrcCount, hvalueCount⟩ := hcount a ha
  obtain ⟨d, hd, hdspan⟩ := h.countAt_span hc
  exact ⟨d, hd, by rw [hspan, hdspan, hsrcCount], by rw [hdspan, hvalueCount]⟩

theorem EncodeEffect.countVal_lenDst (h : EncodeEffect x dst lenDst s t) {k a : Nat} (hready : EncodeReady s dst lenDst k)
    (ha : lenDst = some a) : t.countVal a = some (encLen x) := by
  obtain ⟨c, hc, -⟩ := hready.count a ha
  rw [State.countVal, h.counts, if_pos ha, hc]
  rfl

end

/-! ### What a decode answers in its destinations -/

section
variable {w : Word} {src valDst k : Nat} {consDst : Ref} {s t : State}

theorem DecodeEffect.valueVal_valDst (h : DecodeEffect w valDst consDst k s t) (hready : DecodeReady s src valDst consDst) :
    t.valueVal valDst = some w := by
  obtain ⟨y, hy, -⟩ := hready.value
  rw [State.valueVal, h.values, if_pos rfl, hy]
  rfl

theorem DecodeEffect.countVal_consDst (h : DecodeEffect w valDst consDst k s t) (hready : DecodeReady s src valDst consDst)
    {a : Nat} (ha : consDst = some a) : t.countVal a = some (k + 1) := by
  obtain ⟨_, _, _, hcount⟩ := hready.value
  obtain ⟨c, hc, -⟩ := hcount a ha
  rw [State.countVal, h.counts, if_pos ha, hc]
  rfl

end

/-! ### The round trip -/

/-- A decode of the bytes an encode wrote: `post` of the value encoded, and on both sides its length. -/
theorem encode_decode_roundTrip (post : Word → Word) {x : Word} {buf valDst : Nat} {lenDst consDst : Ref} {s : State}
    (henc : EncodeReady s buf lenDst (encLen x)) (hdec : DecodeReady s buf valDst consDst) :
    ∃ t u, encodeUnsigned x (some buf) lenDst s = .next t ∧
      decodeWith post (some buf) (some valDst) consDst t = .next u ∧
      t.status = some .ok ∧ u.status = some .ok ∧ u.valueVal valDst = some (post x) ∧
      (∀ a, lenDst = some a → t.countVal a = some (encLen x)) ∧
      (∀ a, consDst = some a → u.countVal a = some (encLen x)) := by
  have hwrote := encoded_effect x buf lenDst s
  have hdec' := hwrote.decodeReady hdec
  obtain ⟨u, hu, hread⟩ := decodeWith_of_holdsCanonical post hdec' (hwrote.holdsCanonical henc.room)
  refine ⟨_, u, encode_of_ready henc, hu, hwrote.status, hread.status, hread.valueVal_valDst hdec', ?_, ?_⟩
  · exact fun a ha => hwrote.countVal_lenDst henc ha
  · intro a ha
    rw [hread.countVal_consDst hdec' ha, Nat.sub_add_cancel (encLen_pos x)]

/-- Zero in two bytes, one more than its canonical stream has (R49). -/
def overlongZero : List Byte := [0x80#8, 0x00#8]

theorem isStream_overlongZero : IsStream overlongZero := ⟨by decide, by decide, by decide⟩

theorem streamValue_overlongZero : streamValue overlongZero = 0#64 := by decide

theorem overlongZero_ne_canonical : overlongZero ≠ canonical 0#64 := by
  rw [canonical_of_small (by decide)]
  decide

/-- Settles O30: the round trip with nothing applied to the accumulator; the canonical stream is one-to-one, but two bytes
also denote zero. -/
theorem unsignedRoundTrip : Obligations.UnsignedRoundTrip := by
  refine ⟨?roundTrip, fun _ _ h => canonical_injective h, ?overlong⟩
  case roundTrip =>
    intro v buf valDst lenDst consDst s henc hdec
    exact encode_decode_roundTrip (fun x => x) henc hdec
  case overlong =>
    refine ⟨overlongZero, isStream_overlongZero, streamValue_overlongZero, ?_⟩
    rw [streamValue_overlongZero]
    exact overlongZero_ne_canonical

end Sys2Proof.Machine
end

section
/-!
PROOFS. The decode of a stream (41_decode_unsigned.md). What a decode does on a terminated source (`decodeWith_of_ready`) and
with a required reference ABSENT (`decodeWith_absent`) is said once, for whatever is applied to the accumulator; the
statements about DECU take it with nothing applied.
-/

namespace Sys2Proof.Machine

/-- A decode that keeps the contract reads the stream its source holds, canonical or not (R69, R73). -/
theorem decodeWith_of_ready (post : Word → Word) {src valDst k : Nat} {consDst : Ref} {s : State}
    (hready : DecodeReady s src valDst consDst) (hterm : Terminates s src k) :
    ∃ t, decodeWith post (some src) (some valDst) consDst s = .next t ∧
      DecodeEffect (post (streamValue (s.mem.bytes src (k + 1)))) valDst consDst k s t :=
  ⟨s.decoded post src valDst consDst k, decodeWith_of_terminates (decodeContract_of_ready hready) hterm,
    decoded_effect post src valDst consDst k s⟩

/-- Settles O12: the decode of the stream, with its value written as it is. -/
theorem decuReadsStream : Obligations.DecuReadsStream := by
  intro src valDst consDst k s hready hterm
  exact decodeWith_of_ready (fun x => x) hready hterm

/-- Settles O24: the bytes are those the decode of a canonical stream asks for, and what follows them is not read. -/
theorem decuInvertsCanonicalBytes : Obligations.DecuInvertsCanonicalBytes := by
  intro v src valDst consDst s hready hroom hbytes
  exact decodeWith_of_holdsCanonical (fun x => x) hready ⟨hroom, hbytes⟩

/-- A decode tests both required references before it looks at the source or the contract (R72, R100). -/
theorem decodeWith_absent (post : Word → Word) {src valDst : Ref} (consDst : Ref) (s : State)
    (h : src = none ∨ valDst = none) : decodeWith post src valDst consDst s = .next (s.report .invalidArgument) := by
  rcases h with rfl | rfl
  · cases valDst <;> rfl
  · cases src <;> rfl

/-- Settles O15: what is applied to the accumulator plays no part, so DECU and DECS answer alike. -/
theorem absentDecodeReferenceIsInvalid : Obligations.AbsentDecodeReferenceIsInvalid := by
  intro src valDst consDst s h
  exact ⟨decodeWith_absent (fun x => x) consDst s h, decodeWith_absent zzdec consDst s h⟩

end Sys2Proof.Machine
end

section
/-!
PROOFS. The zig-zag transform (42_zigzag_transform.md). Each function has two cases: ZZENC by the sign of its input, ZZDEC by
its parity. From the cases follow the laws in the integers (R82), `toNat_zzenc` and `toInt_zzdec`; the bijection and the
lengths of signed values are arithmetic on those.
-/

namespace Sys2Proof.Machine

/-! ### ZZENC by the sign of its input -/

/-- The sign fill of R80 is all zeros for a non-negative input. -/
theorem zzenc_of_nonneg {x : Word} (h : 0 ≤ x.toInt) : zzenc x = x <<< 1 := by
  have hlt := BitVec.two_mul_toInt_lt (x := x)
  have hfill : x.sshiftRight 63 = 0#64 := by
    rw [BitVec.sshiftRight_eq, Int.shiftRight_eq_div_pow, show x.toInt / (2 ^ 63 : Nat) = 0 by omega]
    rfl
  rw [zzenc, shl64, hfill, BitVec.xor_zero]

/-- The sign fill of R80 is all ones for a negative input. -/
theorem zzenc_of_neg {x : Word} (h : x.toInt < 0) : zzenc x = ~~~(x <<< 1) := by
  have hge := BitVec.le_two_mul_toInt (x := x)
  have hfill : x.sshiftRight 63 = BitVec.allOnes 64 := by
    rw [BitVec.sshiftRight_eq, Int.shiftRight_eq_div_pow, show x.toInt / (2 ^ 63 : Nat) = -1 by omega]
    rfl
  rw [zzenc, shl64, hfill, BitVec.xor_allOnes]

theorem toNat_zzenc_of_nonneg {x : Word} (h : 0 ≤ x.toInt) : (zzenc x).toNat = 2 * x.toNat := by
  have hx := BitVec.toInt_pos_iff.1 h
  rw [zzenc_of_nonneg h, BitVec.toNat_shiftLeft, Nat.shiftLeft_eq]
  omega

theorem toNat_zzenc_of_neg {x : Word} (h : x.toInt < 0) : (zzenc x).toNat = 2 * (~~~x).toNat + 1 := by
  have hx := BitVec.toInt_neg_iff.1 h
  rw [zzenc_of_neg h, BitVec.toNat_not, BitVec.toNat_not, BitVec.toNat_shiftLeft, Nat.shiftLeft_eq]
  omega

/-! ### ZZDEC by the parity of its input -/

theorem zzdec_of_even {u : Word} (h : u.toNat % 2 = 0) : zzdec u = u >>> 1 := by
  simp [zzdec, BitVec.getLsbD, Nat.testBit_zero, h]

theorem zzdec_of_odd {u : Word} (h : u.toNat % 2 = 1) : zzdec u = ~~~(u >>> 1) := by
  simp [zzdec, BitVec.getLsbD, Nat.testBit_zero, h]

/-- Settles O27: `u & 1` is 0 or 1, so its negative is the mask that keeps or complements (R87). -/
theorem zigzagBranchFree : Obligations.ZigzagBranchFree := by
  intro u
  have hbit : (u &&& 1#64).toNat = u.toNat % 2 := by simp [Nat.and_one_is_mod]
  rcases Nat.mod_two_eq_zero_or_one u.toNat with h | h
  · have hmask : u &&& 1#64 = 0#64 := BitVec.eq_of_toNat_eq (by rw [hbit, h]; rfl)
    rw [zzdec_of_even h, hmask, BitVec.sub_zero, BitVec.xor_zero]
  · have hmask : u &&& 1#64 = 1#64 := BitVec.eq_of_toNat_eq (by rw [hbit, h]; rfl)
    rw [zzdec_of_odd h, hmask, BitVec.zero_sub, BitVec.neg_one_eq_allOnes, BitVec.xor_allOnes]

/-! ### The laws in the integers -/

theorem toNat_zzenc (x : Word) :
    ((zzenc x).toNat : Int) = if 0 ≤ x.toInt then 2 * x.toInt else -2 * x.toInt - 1 := by
  split
  next h =>
    rw [toNat_zzenc_of_nonneg h, BitVec.toInt_eq_toNat_of_lt (BitVec.toInt_pos_iff.1 h)]
    rfl
  next h =>
    have hneg : x.toInt < 0 := by omega
    have hx := BitVec.toInt_neg_iff.1 hneg
    rw [toNat_zzenc_of_neg hneg, BitVec.toNat_not, BitVec.toInt_eq_toNat_cond, if_neg (by omega)]
    omega

theorem toInt_zzdec (u : Word) :
    (zzdec u).toInt = if u.toNat % 2 = 0 then (u.toNat : Int) / 2 else -((u.toNat + 1 : Int) / 2) := by
  have hhalf : (u >>> 1).toNat = u.toNat / 2 := by simp [Nat.shiftRight_eq_div_pow]
  have hu := u.isLt
  split
  next h =>
    rw [zzdec_of_even h, BitVec.toInt_eq_toNat_of_lt (by omega), hhalf]
    rfl
  next h =>
    rw [zzdec_of_odd (by omega), BitVec.toInt_eq_toNat_cond, BitVec.toNat_not, hhalf, if_neg (by omega)]
    omega

/-- Settles O25: the laws of both functions. -/
theorem zigzagArithmetic : Obligations.ZigzagArithmetic := ⟨toNat_zzenc, toInt_zzdec⟩

/-! ### The bijection -/

/-- Decode after encode, in the integers: an even result halves back, an odd one came from a negative input. -/
theorem zzdec_zzenc (x : Word) : zzdec (zzenc x) = x := by
  apply BitVec.eq_of_toInt_eq
  have henc := toNat_zzenc x
  rw [toInt_zzdec]
  split at henc <;> split <;> omega

/-- Encode after decode: an even input decodes to its half, which is non-negative, and an odd one to a negative value. -/
theorem zzenc_zzdec (u : Word) : zzenc (zzdec u) = u := by
  apply BitVec.eq_of_toNat_eq
  have hdec := toInt_zzdec u
  have henc := toNat_zzenc (zzdec u)
  split at hdec <;> split at henc <;> omega

/-- Settles O26: each is the inverse of the other. -/
theorem zigzagIsABijection : Obligations.ZigzagIsABijection := ⟨zzdec_zzenc, zzenc_zzdec⟩

/-! ### Lengths of signed values -/

/-- Shifting a non-zero value right by one takes one bit off its length. -/
theorem bitlen_eq_succ_of_half {w v : Word} (hw : w.toNat ≠ 0) (hhalf : w.toNat / 2 = v.toNat) :
    bitlen w = bitlen v + 1 := by
  refine eq_of_forall_ge_iff fun k => ?_
  cases k with
  | zero =>
    rw [bitlen_le_iff]
    omega
  | succ k =>
    rw [Nat.add_le_add_iff_right, bitlen_le_iff, bitlen_le_iff, ← hhalf, Nat.div_lt_iff_lt_mul Nat.two_pos, Nat.pow_succ]

theorem bitlen_zzenc_of_pos {x : Word} (h : 0 < x.toInt) : bitlen (zzenc x) = bitlen x + 1 := by
  have henc := toNat_zzenc_of_nonneg h.le
  have hx : x.toNat ≠ 0 := fun h0 => by simp [BitVec.toInt, h0] at h
  exact bitlen_eq_succ_of_half (by omega) (by omega)

theorem bitlen_zzenc_of_neg {x : Word} (h : x.toInt < 0) : bitlen (zzenc x) = bitlen (-x - 1#64) + 1 := by
  have henc := toNat_zzenc_of_neg h
  rw [← BitVec.not_eq_neg_add]
  exact bitlen_eq_succ_of_half (by omega) (by omega)

/-- Nine bytes hold a zig-zag value below 2^63 (R45), which is a signed value of 63 bits. -/
theorem encLen_zzenc_eq_ten_iff (x : Word) :
    encLen (zzenc x) = 10 ↔ (2 ^ 62 ≤ x.toInt ∨ x.toInt < -2 ^ 62) := by
  have hmax : encLen (zzenc x) ≤ 10 := encLen_le_maxLen _
  have hnine : encLen (zzenc x) ≤ 9 ↔ (zzenc x).toNat < 2 ^ 63 := encLen_le_iff _ (by decide)
  have henc := toNat_zzenc x
  split at henc <;> omega

/-- Settles O29: the six extremes are evaluated, the lengths follow from ZZENC's value. -/
theorem signedLengths : Obligations.SignedLengths := by
  refine ⟨?_, ?_, ?_, ?_, ?_, ?_, encLen_zzenc_eq_ten_iff, @bitlen_zzenc_of_pos, @bitlen_zzenc_of_neg⟩
  all_goals decide

/-- Settles O28: seven evaluations. -/
theorem zigzagFirstValues : Obligations.ZigzagFirstValues := by
  unfold Obligations.ZigzagFirstValues
  decide

end Sys2Proof.Machine
end

section
/-!
PROOFS. The signed operations (43_signed_ops.md). ENCS is ENCU of ZZENC of its value, and DECS is the decode that applies
ZZDEC to its accumulator. So the signed and the mixed round trips are both the one round trip of the unsigned codec, with
ZZENC before it or ZZDEC after it; the signed one is closed by their being inverse.
-/

namespace Sys2Proof.Machine

/-- ENCS has no encoder of its own (R89). -/
theorem exec_encs_eq_encu_zzenc (x : Word) (dst lenDst : Ref) (s : State) :
    exec (.encs x dst lenDst) s = exec (.encu (zzenc x) dst lenDst) s := rfl

/-- Settles O9: the effect is ENCU's, for ZZENC of the value. -/
theorem encsWritesZigzagStream : Obligations.EncsWritesZigzagStream := by
  refine ⟨?_, exec_encs_eq_encu_zzenc⟩
  intro x dst lenDst s hready
  rw [exec_encs_eq_encu_zzenc]
  exact encuWritesCanonicalStream (zzenc x) dst lenDst s hready

/-- Settles O31: the round trip of ZZENC of the value, with ZZDEC applied to what is read, which undoes it (R84). -/
theorem signedRoundTrip : Obligations.SignedRoundTrip := by
  intro v buf valDst lenDst consDst s henc hdec
  have htrip := encode_decode_roundTrip zzdec henc hdec
  rw [zzdec_zzenc] at htrip
  exact htrip

/-- Settles O32: the round trip with only one of the two transforms on its way. -/
theorem mismatchedSignednessSucceeds : Obligations.MismatchedSignednessSucceeds := by
  intro v buf valDst lenDst consDst s hdec
  constructor
  · intro henc
    obtain ⟨t, u, ht, hu, -, hstatus, hvalue, -⟩ := encode_decode_roundTrip (fun x => x) henc hdec
    exact ⟨t, u, ht, hu, hstatus, hvalue⟩
  · intro henc
    obtain ⟨t, u, ht, hu, -, hstatus, hvalue, -⟩ := encode_decode_roundTrip zzdec henc hdec
    exact ⟨t, u, ht, hu, hstatus, hvalue⟩

end Sys2Proof.Machine
end

section
/-!
PROOFS. Statuses (60_exceptions.md). ENCU and ENCS share one encode and DECU and DECS one decode, so what can be answered is
said once of each shared operation, from its inversion lemma (`encode_next`, `decode_next`); the transform applied to the
value plays no part.
-/

namespace Sys2Proof.Machine

/-- The status of an encode tells whether its destination is there, whatever value is encoded (R64, R103). -/
theorem encodeUnsigned_status {x : Word} {dst lenDst : Ref} {s t : State} (h : encodeUnsigned x dst lenDst s = .next t) :
    (dst = none ∧ t.status = some .invalidArgument) ∨ (dst ≠ none ∧ t.status = some .ok) := by
  obtain ⟨hdst, rfl⟩ | ⟨d, rfl, -, rfl⟩ := encode_next h
  · exact .inl ⟨hdst, rfl⟩
  · exact .inr ⟨Option.some_ne_none d, (encoded_effect x d lenDst s).status⟩

/-- The status of a decode tells whether its required references are there and how its source ends, whatever is applied to the
accumulator (R72, R100, R103). -/
theorem decodeWith_status {post : Word → Word} {src valDst consDst : Ref} {s t : State}
    (h : decodeWith post src valDst consDst s = .next t) :
    ((src = none ∨ valDst = none) ∧ t.status = some .invalidArgument) ∨
    (∃ a k, src = some a ∧ valDst ≠ none ∧ Terminates s a k ∧ t.status = some .ok) ∨
    (∃ a, src = some a ∧ valDst ≠ none ∧ Unterminated s a ∧ t.status = some .incompleteStream) := by
  obtain ⟨habsent, rfl⟩ | ⟨a, vd, rfl, rfl, -, ⟨k, hterm, rfl⟩ | ⟨hunterm, rfl⟩⟩ := decode_next h
  · exact .inl ⟨habsent, rfl⟩
  · exact .inr (.inl ⟨a, k, rfl, Option.some_ne_none vd, hterm, (decoded_effect post a vd consDst k s).status⟩)
  · exact .inr (.inr ⟨a, rfl, Option.some_ne_none vd, hunterm, (incompleted_effect a vd consDst s).status⟩)

/-- Settles O34: each operation is its family's shared one, with the zig-zag transform or without it. -/
theorem statusesByOperation : Obligations.StatusesByOperation := by
  constructor
  · rintro x dst lenDst s t (hencu | hencs)
    · exact encodeUnsigned_status (x := x) hencu
    · exact encodeUnsigned_status (x := zzenc x) hencs
  · rintro src valDst consDst s t (hdecu | hdecs)
    · exact decodeWith_status (post := fun x => x) hdecu
    · exact decodeWith_status (post := zzdec) hdecs

end Sys2Proof.Machine
end

section
/-!
PROOFS. The host view of a step (10_state.md section 3). A step is run on `s.hostView` as on `s`, and its answer has the same
view. For an operation that is the idle view's lemma; what a reset in flight leaves (`abandoned`) takes nothing from the
working registers, neither of the state it starts from nor of the one the whole transaction would have left.
-/

namespace Sys2Proof.Machine

/-! ### A reset in flight -/

/-- The state a reset in flight leaves when the whole transaction would have left `new` (R113, U6). -/
def abandoned (i : Instr) (new s : State) : State := { (loosen new.draws new i s).quiet with draws := new.draws + 1 }

theorem abandon_eq (i : Instr) (s : State) : abandon i s = andThen (exec i s) fun t => .next (abandoned i t s) := rfl

/-- A reset in flight loosens what stands behind the operation's write references, whichever of them it has. -/
theorem loosen_eq (draw : Nat) (new : State) (i : Instr) (s : State) :
    loosen draw new i s =
      loosenCount draw new (countRef i) (loosenValue draw new (valueRef i) (loosenDst draw new (dstRef i) s)) := by
  cases i <;> rfl

/-! ### A reset in flight takes nothing from the working registers -/

theorem loosenBytes_hostView (draw : Nat) (new : Memory) (k a : Nat) (s : State) :
    loosenBytes draw new k a s.hostView = (loosenBytes draw new k a s).hostView := by
  induction k generalizing a s with
  | zero => rfl
  | succ k ih => exact ih (a + 1) (s.setByte a _)

theorem loosenDst_hostView (draw : Nat) (new : State) (r : Ref) (s : State) :
    loosenDst draw new r s.hostView = (loosenDst draw new r s).hostView := by
  cases r with
  | none => rfl
  | some d => exact loosenBytes_hostView draw new.mem _ d s

theorem loosenValue_hostView (draw : Nat) (new : State) (r : Ref) (s : State) :
    loosenValue draw new r s.hostView = (loosenValue draw new r s).hostView := by cases r <;> rfl

theorem loosenCount_hostView (draw : Nat) (new : State) (r : Ref) (s : State) :
    loosenCount draw new r s.hostView = (loosenCount draw new r s).hostView := by cases r <;> rfl

theorem abandoned_hostView (i : Instr) (new s : State) : abandoned i new s.hostView = abandoned i new s := by
  unfold abandoned
  rw [loosen_eq, loosen_eq, loosenDst_hostView, loosenValue_hostView, loosenCount_hostView]
  rfl

theorem abandoned_of_hostView (i : Instr) (new s : State) : abandoned i new.hostView s = abandoned i new s := by
  cases i <;> rfl

/-! ### Every action of the host answers alike on the host view -/

theorem resultView_exec_hostView (i : Instr) (s : State) : resultView (exec i s.hostView) = resultView (exec i s) := by
  rw [← resultView_exec_idleView i s.hostView, ← resultView_exec_idleView i s]
  rfl

/-- What a reset in flight leaves depends on no more of the whole transaction than a host would have seen. -/
theorem abandon_eq_of_resultView (i : Instr) (s : State) :
    abandon i s = andThen (resultView (exec i s)) fun t => .next (abandoned i t s) := by
  rw [abandon_eq]
  cases exec i s with
  | next t => exact congrArg Host.Outcome.next (abandoned_of_hostView i t s).symm
  | fault e => rfl
  | refused r => rfl

theorem abandon_hostView (i : Instr) (s : State) : abandon i s.hostView = abandon i s := by
  simp only [abandon_eq_of_resultView, resultView_exec_hostView, abandoned_hostView]

theorem hostStoreByte_of_plain {a : Nat} {s : State} (h : 0 < s.room a ∧ s.isDevice a = false) (b : Byte) :
    hostStoreByte a b s = .next (s.setByte a b) := if_pos h

theorem hostStoreByte_of_outside {a : Nat} {s : State} (h : ¬ (0 < s.room a ∧ s.isDevice a = false)) (b : Byte) :
    hostStoreByte a b s = .refused .hostStoreOutside := if_neg h

theorem resultView_hostStoreByte_hostView (a : Nat) (b : Byte) (s : State) :
    resultView (hostStoreByte a b s.hostView) = resultView (hostStoreByte a b s) := by
  by_cases h : 0 < s.room a ∧ s.isDevice a = false
  · rw [hostStoreByte_of_plain h, hostStoreByte_of_plain (s := s.hostView) h]
    rfl
  · rw [hostStoreByte_of_outside h, hostStoreByte_of_outside (s := s.hostView) h]

theorem resultView_hostStoreCount_hostView (a k : Nat) (s : State) :
    resultView (hostStoreCount a k s.hostView) = resultView (hostStoreCount a k s) := by
  have hat : s.hostView.countAt a = s.countAt a := rfl
  rw [hostStoreCount, hostStoreCount, hat]
  cases s.countAt a <;> rfl

theorem resultView_hostStoreValue_hostView (a : Nat) (x : Word) (s : State) :
    resultView (hostStoreValue a x s.hostView) = resultView (hostStoreValue a x s) := by
  have hat : s.hostView.valueAt a = s.valueAt a := rfl
  rw [hostStoreValue, hostStoreValue, hat]
  cases s.valueAt a <;> rfl

theorem resultView_takeInput_hostView (x : Input) (s : State) :
    resultView (takeInput x s.hostView) = resultView (takeInput x s) := by
  cases x with
  | request r => exact resultView_exec_hostView (decode r) s
  | reset => rfl
  | abandon r => exact congrArg resultView (abandon_hostView (decode r) s)
  | hostByte a b => exact resultView_hostStoreByte_hostView a b s
  | hostCount a k => exact resultView_hostStoreCount_hostView a k s
  | hostValue a x => exact resultView_hostStoreValue_hostView a x s

/-! ### Steps -/

theorem step_of_nil {s : State} (h : s.inputs = []) : step s = .next s := by simp only [step, advance, h]

theorem step_of_cons {s : State} {x : Input} {rest : List Input} (h : s.inputs = x :: rest) :
    step s = takeInput x { s with inputs := rest } := by simp only [step, advance, h]

theorem resultView_step_hostView (s : State) : resultView (step s.hostView) = resultView (step s) := by
  cases h : s.inputs with
  | nil =>
    rw [step_of_nil h, step_of_nil (s := s.hostView) h]
    rfl
  | cons x rest =>
    rw [step_of_cons h, step_of_cons (s := s.hostView) h]
    exact resultView_takeInput_hostView x { s with inputs := rest }

/-- Settles O41: both steps have the view of the step from their common host view. -/
theorem stepsHideWorkingRegisters : Obligations.StepsHideWorkingRegisters := by
  intro s t hview
  rw [sameToHost_iff]
  calc resultView (step s)
      = resultView (step s.hostView) := (resultView_step_hostView s).symm
    _ = resultView (step t.hostView) := by rw [hview]
    _ = resultView (step t) := resultView_step_hostView t

/-- Settles O47: a reset touches no storage, and leaves the idle view as it was. -/
theorem resetGivesIdleBlock : Obligations.ResetGivesIdleBlock := by
  refine ⟨fun s rest h => ⟨({ s with inputs := rest } : State).quiet, step_of_cons h, ?_⟩, fun i s => ?_⟩
  · exact ⟨rfl, rfl, rfl, rfl, rfl, rfl, rfl⟩
  · exact transactionsKeepNothing i s s.quiet rfl

/-- Settles O46: the reset state by its definition; an idle block has no action to take. -/
theorem resetIsIdle : Obligations.ResetIsIdle := ⟨rfl, rfl, fun _ => step_of_nil⟩

end Sys2Proof.Machine
end

section
/-!
PROOFS. The request record and the status codes (10_state.md section 6, 30_encoding.md sections 7 and 8), and the arithmetic
of the stream format in R45's table.
-/

namespace Sys2Proof.Machine

/-! ### Requests -/

/-- Settles O1: a request is taken off the list and run. -/
theorem stepRunsRequestedOperation : Obligations.StepRunsRequestedOperation := fun _ _ _ h => step_of_cons h

/-- Settles O2: the request placed is the head of the list, and taking it off gives the state back. -/
theorem placedWordRunsNext : Obligations.PlacedWordRunsNext := fun _ nbits w => ⟨decode (tableRequest nbits w), rfl, rfl⟩

/-- Settles O4: four evaluations. -/
theorem writtenRequestsDecode : Obligations.WrittenRequestsDecode := by
  unfold Obligations.WrittenRequestsDecode
  decide

theorem ref_portOf (r : Ref) : (portOf r).ref = r := by cases r <;> rfl

/-- Settles O5: the selector code picks the operation's branch, and a port carries the reference it was made of. -/
theorem decodeOfEncode : Obligations.DecodeOfEncode := by
  intro i
  cases i <;> simp [encode, decode, opCode, ref_portOf]

/-- With the direction bit clear, a request selects an encode, of the fields an encode takes (R17, R52). -/
theorem decode_of_encodes {r : Request} (h : r.op.getLsbD 0 = false) :
    decode r = (bif r.op.getLsbD 1 then Instr.encs else Instr.encu) r.valueIn r.dst.ref r.lenDst.ref := by
  unfold decode
  rw [h]
  cases r.op.getLsbD 1 <;> rfl

/-- With the direction bit set, a request selects a decode, of the fields a decode takes (R17, R52). -/
theorem decode_of_decodes {r : Request} (h : r.op.getLsbD 0 = true) :
    decode r = (bif r.op.getLsbD 1 then Instr.decs else Instr.decu) r.src.ref r.valDst.ref r.consDst.ref := by
  unfold decode
  rw [h]
  cases r.op.getLsbD 1 <;> rfl

/-- Two requests that agree in the selector and in the fields it takes decode to one operation. -/
theorem decode_eq_of_read_fields {r q : Request} (hop : r.op = q.op)
    (henc : r.op.getLsbD 0 = false → r.valueIn = q.valueIn ∧ r.dst.ref = q.dst.ref ∧ r.lenDst.ref = q.lenDst.ref)
    (hdec : r.op.getLsbD 0 = true → r.src.ref = q.src.ref ∧ r.valDst.ref = q.valDst.ref ∧ r.consDst.ref = q.consDst.ref) :
    decode r = decode q := by
  cases hdir : r.op.getLsbD 0 with
  | false =>
    obtain ⟨hvalue, hdst, hlen⟩ := henc hdir
    rw [decode_of_encodes hdir, decode_of_encodes (hop ▸ hdir), hop, hvalue, hdst, hlen]
  | true =>
    obtain ⟨hsrc, hval, hcons⟩ := hdec hdir
    rw [decode_of_decodes hdir, decode_of_decodes (hop ▸ hdir), hop, hsrc, hval, hcons]

/-- Settles O6: both steps run the one operation the two requests decode to. -/
theorem unreadFieldsAreIgnored : Obligations.UnreadFieldsAreIgnored := by
  intro r q s rest hop henc hdec
  rw [step_of_cons (x := .request r) rfl, step_of_cons (x := .request q) rfl, takeInput, takeInput,
    decode_eq_of_read_fields hop henc hdec]

/-- Settles O7: each code by its definition. -/
theorem statusCodesOfTable : Obligations.StatusCodesOfTable := by
  refine ⟨rfl, rfl, rfl, fun st => ?_⟩
  cases st <;> decide

/-! ### Lengths -/

/-- R45's table, one row of it. -/
theorem encLen_eq_iff (v : Word) {k : Nat} (hk : 1 ≤ k) :
    encLen v = k ↔ (k = 1 ∨ 2 ^ (7 * (k - 1)) ≤ v.toNat) ∧ v.toNat < 2 ^ (7 * k) := by
  have hpos := encLen_pos v
  rw [← encLen_le_iff v hk]
  rcases Nat.eq_or_lt_of_le hk with rfl | hk1
  · simp only [true_or, true_and]
    omega
  · rw [← Nat.not_lt, ← encLen_le_iff v (show 1 ≤ k - 1 by omega)]
    omega

/-- A stream is no shorter than the canonical one of its value: its groups hold that value. -/
theorem encLen_streamValue_le {bs : List Byte} (h : bs ≠ []) : encLen (streamValue bs) ≤ bs.length := by
  rw [encLen_le_iff _ (List.length_pos_iff.2 h), streamValue, BitVec.toNat_ofNat]
  exact lt_of_le_of_lt (Nat.mod_le _ _) (groupSum_lt bs)

/-- Settles O20: the table and its minimality. -/
theorem lengthFollowsTable : Obligations.LengthFollowsTable :=
  ⟨fun v _ hk _ => encLen_eq_iff v hk, fun _ => encLen_streamValue_le⟩

/-- Settles O22: by induction along the encoder's loop, in `groupSum_canonical`. -/
theorem assemblingInvertsSplitting : Obligations.AssemblingInvertsSplitting := streamValue_canonical

end Sys2Proof.Machine
end

section
/-!
PROOFS. Stops of the contract (20_memory.md sections 4 and 5). What `encodeContract` and `decodeContract` answer is said once
for each way to break the contract; with the contract kept, only the room behind the buffer reference can stop an operation.
-/

namespace Sys2Proof.Machine

/-! ### Ways to break the contract -/

section
variable {s : State} {dst a : Nat} {lenDst : Ref}

theorem encodeContract_of_device (h : s.isDevice dst = true) : s.encodeContract dst lenDst = some .deviceStorage := by
  simp [State.encodeContract, h]

theorem encodeContract_of_overlap {c : CountObj} (hplain : s.isDevice dst = false) (hc : s.countAt a = some c)
    (hover : (s.bufferSpan dst).apart c.span = false) :
    s.encodeContract dst (some a) = some .overlappingReferences := by
  simp [State.encodeContract, hplain, hc, hover]

theorem encodeContract_of_noCount (hplain : s.isDevice dst = false) (hc : s.countAt a = none) :
    s.encodeContract dst (some a) = some .noCountObject := by
  simp [State.encodeContract, hplain, hc]

theorem encodeUnsigned_of_contract (x : Word) {r : Refusal} (h : s.encodeContract dst lenDst = some r) :
    encodeUnsigned x (some dst) lenDst s = .refused r := by
  simp [encodeUnsigned_eq, h]

end

section
variable {s : State} {src valDst a : Nat} {consDst : Ref} {x : ValueObj}

theorem decodeContract_of_device (h : s.isDevice src = true) :
    s.decodeContract src valDst consDst = some .deviceStorage := by
  simp [State.decodeContract, h]

theorem decodeContract_of_noValue (hplain : s.isDevice src = false) (hx : s.valueAt valDst = none) :
    s.decodeContract src valDst consDst = some .noValueObject := by
  simp [State.decodeContract, hplain, hx]

theorem decodeContract_of_value_overlap (hplain : s.isDevice src = false) (hx : s.valueAt valDst = some x)
    (hover : (s.bufferSpan src).apart x.span = false) :
    s.decodeContract src valDst consDst = some .overlappingReferences := by
  simp [State.decodeContract, hplain, hx, hover]

theorem decodeContract_of_noCount (hplain : s.isDevice src = false) (hx : s.valueAt valDst = some x)
    (hapart : (s.bufferSpan src).apart x.span = true) (hc : s.countAt a = none) :
    s.decodeContract src valDst (some a) = some .noCountObject := by
  simp [State.decodeContract, hplain, hx, hapart, hc]

/-- A count object over the source or over the value is an overlap, whether or not the value lies over the source. -/
theorem decodeContract_of_count_overlap {c : CountObj} (hplain : s.isDevice src = false) (hx : s.valueAt valDst = some x)
    (hc : s.countAt a = some c) (hover : (s.bufferSpan src).apart c.span = false ∨ x.span.apart c.span = false) :
    s.decodeContract src valDst (some a) = some .overlappingReferences := by
  cases hsrc : (s.bufferSpan src).apart x.span with
  | false => exact decodeContract_of_value_overlap hplain hx hsrc
  | true => rcases hover with h | h <;> simp [State.decodeContract, hplain, hx, hc, hsrc, h]

end

/-! ### Both operations of a family stop for the contract alike -/

theorem exec_encodes_of_contract {s : State} {dst : Nat} {lenDst : Ref} {r : Refusal}
    (h : s.encodeContract dst lenDst = some r) (x : Word) :
    exec (.encu x (some dst) lenDst) s = .refused r ∧ exec (.encs x (some dst) lenDst) s = .refused r :=
  ⟨encodeUnsigned_of_contract x h, encodeUnsigned_of_contract (zzenc x) h⟩

theorem exec_decodes_of_contract {s : State} {src valDst : Nat} {consDst : Ref} {r : Refusal}
    (h : s.decodeContract src valDst consDst = some r) :
    exec (.decu (some src) (some valDst) consDst) s = .refused r ∧
    exec (.decs (some src) (some valDst) consDst) s = .refused r :=
  ⟨decodeWith_of_contract (post := fun x => x) h, decodeWith_of_contract (post := zzdec) h⟩

/-- Settles O36: each way to break the contract, for both operations of its family. -/
theorem deviceOrOverlapStops : Obligations.DeviceOrOverlapStops := by
  refine ⟨?encodeDevice, ?decodeDevice, ?encodeCount, ?decodeValue, ?decodeCount⟩
  case encodeDevice =>
    exact fun x _ _ _ h => exec_encodes_of_contract (encodeContract_of_device h) x
  case decodeDevice =>
    exact fun _ _ _ _ h => exec_decodes_of_contract (decodeContract_of_device h)
  case encodeCount =>
    exact fun x _ _ _ _ hplain hc hover => exec_encodes_of_contract (encodeContract_of_overlap hplain hc hover) x
  case decodeValue =>
    exact fun _ _ _ _ _ hplain hx hover => exec_decodes_of_contract (decodeContract_of_value_overlap hplain hx hover)
  case decodeCount =>
    exact fun _ _ _ _ _ _ hplain hx hc hover =>
      exec_decodes_of_contract (decodeContract_of_count_overlap hplain hx hc hover)

/-- Settles O37: the contract looks an object up before it asks whether it is apart. -/
theorem missingObjectStops : Obligations.MissingObjectStops := by
  refine ⟨?encodeCount, ?decodeValue, ?decodeCount⟩
  case encodeCount =>
    exact fun x _ _ _ hplain hnone => exec_encodes_of_contract (encodeContract_of_noCount hplain hnone) x
  case decodeValue =>
    exact fun _ _ _ _ hplain hnone => exec_decodes_of_contract (decodeContract_of_noValue hplain hnone)
  case decodeCount =>
    exact fun _ _ _ _ _ hplain hx hapart hnone =>
      exec_decodes_of_contract (decodeContract_of_noCount hplain hx hapart hnone)

/-! ### Capacity -/

/-- With the rest of the contract kept, an encode stops exactly when its bytes do not fit. -/
theorem encodeUnsigned_destinationTooSmall_iff (x : Word) {dst : Nat} {lenDst : Ref} {s : State}
    (h : EncodeReady s dst lenDst 0) :
    encodeUnsigned x (some dst) lenDst s = .refused .destinationTooSmall ↔ s.room dst < encLen x := by
  rw [encodeUnsigned_eq, encodeContract_of_ready h, ← Nat.not_le]
  by_cases hroom : encLen x ≤ s.room dst <;> simp [hroom]

theorem Terminates.not_shortSource {s : State} {src k : Nat} (h : Terminates s src k) : ¬ ShortSource s src := by
  intro hshort
  have hcont := hshort.all k h.inRoom
  rw [h.last] at hcont
  cases hcont

theorem Unterminated.not_shortSource {s : State} {src : Nat} (h : Unterminated s src) : ¬ ShortSource s src :=
  fun hshort => absurd hshort.room (Nat.not_lt.2 h.inRoom)

/-- With the rest of the contract kept, a decode stops exactly when its buffer ends before a terminating byte and the cap. -/
theorem decodeWith_sourceTooShort_iff (post : Word → Word) {src valDst : Nat} {consDst : Ref} {s : State}
    (h : DecodeReady s src valDst consDst) :
    decodeWith post (some src) (some valDst) consDst s = .refused .sourceTooShort ↔ ShortSource s src := by
  have hc := decodeContract_of_ready h
  rcases source_cases s src with ⟨k, hk⟩ | hu | hs
  · simp [decodeWith_of_terminates hc hk, hk.not_shortSource]
  · simp [decodeWith_of_unterminated hc hu, hu.not_shortSource]
  · simp [decodeWith_of_short hc hs, hs]

theorem shortSource_iff (s : State) (src : Nat) :
    ShortSource s src ↔ s.room src < maxLen ∧ ∀ j, j < s.room src → isCont (s.mem.get (src + j)) = true :=
  ⟨fun h => ⟨h.room, h.all⟩, fun ⟨hroom, hall⟩ => ⟨hroom, hall⟩⟩

/-- Settles O35: what is encoded, or applied to the accumulator, plays no part in the room that is needed. -/
theorem brokenCapacityStops : Obligations.BrokenCapacityStops := by
  refine ⟨fun x dst lenDst s h => ?_, fun src valDst consDst s h => ?_⟩
  · exact ⟨encodeUnsigned_destinationTooSmall_iff x h, encodeUnsigned_destinationTooSmall_iff (zzenc x) h⟩
  · rw [← shortSource_iff]
    exact ⟨decodeWith_sourceTooShort_iff (fun x => x) h, decodeWith_sourceTooShort_iff zzdec h⟩

end Sys2Proof.Machine
end

section
/-!
PROOFS. What an encode or a decode leaves, and what it leaves alone: effects, frames and working registers, each from the
inversion lemma of the shared operation (`encode_next`, `decode_next`) and the facts about its closed forms.
-/

namespace Sys2Proof.Machine

/-! ### Frames -/

/-- The frame of an encode: the bytes, the count and the rest from its effect, the decoder's registers from its registers. -/
theorem encodeUnsigned_frame {x : Word} {dst lenDst : Ref} {s t : State}
    (h : encodeUnsigned x dst lenDst s = .next t) : EncodeFrame x dst lenDst s t := by
  obtain ⟨rfl, rfl⟩ | ⟨d, rfl, -, rfl⟩ := encode_next h
  · exact ⟨fun _ _ => rfl, fun _ _ => rfl, rfl, rfl, rfl, rfl, rfl, rfl, rfl, fun _ => rfl⟩
  · have heffect := encoded_effect x d lenDst s
    have hregs := encoded_registers x d lenDst s
    refine ⟨fun a ha => ?_, fun a ha => ?_, heffect.values, heffect.bufs, heffect.inputs, heffect.draws, hregs.acc,
      hregs.shift, hregs.index, fun hnone => by cases hnone⟩
    · have hout := ha d rfl
      rw [heffect.bytes, if_neg (by omega)]
    · rw [heffect.counts, if_neg ha]

/-- Settles O11: ENCS is an encode of ZZENC of its value. -/
theorem encodeLeavesTheRestAlone : Obligations.EncodeLeavesTheRestAlone :=
  ⟨fun x _ _ _ _ h => encodeUnsigned_frame (x := x) h, fun x _ _ _ _ h => encodeUnsigned_frame (x := zzenc x) h⟩

/-- The frame of a decode, for each of the three statuses it can answer. -/
theorem decodeWith_frame {post : Word → Word} {src valDst consDst : Ref} {s t : State}
    (h : decodeWith post src valDst consDst s = .next t) : DecodeFrame src valDst consDst s t := by
  obtain ⟨-, rfl⟩ | ⟨a, vd, rfl, rfl, -, ⟨k, hterm, rfl⟩ | ⟨-, rfl⟩⟩ := decode_next h
  · exact ⟨rfl, fun _ _ => rfl, fun _ _ => rfl, rfl, rfl, fun _ => rfl, rfl, rfl, fun _ => rfl⟩
  · have heffect := decoded_effect post a vd consDst k s
    have hregs := decoded_registers post a vd consDst hterm.inCap s
    refine ⟨heffect.mem, fun c hc => ?_, fun c hc => ?_, heffect.bufs, heffect.inputs, fun _ => heffect.draws,
      hregs.emitted, hregs.remaining, by simp⟩
    · rw [heffect.counts, if_neg hc]
    · rw [heffect.values, if_neg fun hcv => hc (congrArg some hcv.symm)]
  · have heffect := incompleted_effect a vd consDst s
    have hregs := incompleted_registers a vd consDst s
    refine ⟨heffect.mem, heffect.counts, fun c hc => heffect.values c fun hcv => hc (congrArg some hcv.symm), heffect.bufs,
      heffect.inputs, fun hstatus => absurd heffect.status hstatus, hregs.emitted, hregs.remaining, by simp⟩

/-- Settles O16: both decodes. -/
theorem decodeLeavesTheRestAlone : Obligations.DecodeLeavesTheRestAlone := by
  rintro src valDst consDst s t (hdecu | hdecs)
  · exact decodeWith_frame (post := fun x => x) hdecu
  · exact decodeWith_frame (post := zzdec) hdecs

/-! ### Effects of the decodes -/

/-- Settles O13: the decode of the stream, with ZZDEC applied to its value. -/
theorem decsReadsZigzagStream : Obligations.DecsReadsZigzagStream := fun _ _ _ _ _ => decodeWith_of_ready zzdec

/-- A decode that keeps the contract and reads MAXLEN continuation bytes is incomplete (R71, R74). -/
theorem decodeWith_of_ready_unterminated (post : Word → Word) {src valDst : Nat} {consDst : Ref} {s : State}
    (hready : DecodeReady s src valDst consDst) (h : Unterminated s src) :
    ∃ t, decodeWith post (some src) (some valDst) consDst s = .next t ∧ IncompleteEffect valDst consDst s t :=
  ⟨_, decodeWith_of_unterminated (decodeContract_of_ready hready) h, incompleted_effect src valDst consDst s⟩

/-- Settles O14: nothing is applied to the accumulator, so DECU and DECS answer alike. -/
theorem unterminatedStreamIsIncomplete : Obligations.UnterminatedStreamIsIncomplete := fun _ _ _ _ hready h =>
  ⟨decodeWith_of_ready_unterminated (fun x => x) hready h, decodeWith_of_ready_unterminated zzdec hready h⟩

/-! ### One decode beside another -/

theorem incompleted_status_ne_ok (s : State) (src valDst : Nat) (consDst : Ref) :
    (s.incompleted src valDst consDst).status ≠ some .ok := by
  rw [(incompleted_effect src valDst consDst s).status]
  decide

/-- Whatever is applied to the accumulator, a decode answers in the same cases, with the same status and the same counts; the
values are those of one value read (R92, R93). -/
theorem decodeWith_follows (post post' : Word → Word) {src valDst consDst : Ref} {s t : State}
    (h : decodeWith post src valDst consDst s = .next t) :
    ∃ u, decodeWith post' src valDst consDst s = .next u ∧ u.status = t.status ∧
      (t.status = some .ok →
        (∀ a, u.countVal a = t.countVal a) ∧
        ∀ a, valDst = some a → ∃ w, t.valueVal a = some (post w) ∧ u.valueVal a = some (post' w)) := by
  obtain ⟨habsent, rfl⟩ | ⟨src, vd, rfl, rfl, hready, ⟨k, hterm, rfl⟩ | ⟨hunterm, rfl⟩⟩ := decode_next h
  · exact ⟨_, decodeWith_absent post' consDst s habsent, rfl, by simp⟩
  · have ht := decoded_effect post src vd consDst k s
    have hu := decoded_effect post' src vd consDst k s
    refine ⟨_, decodeWith_of_terminates (decodeContract_of_ready hready) hterm, rfl, fun _ => ⟨fun a => ?_, ?_⟩⟩
    · rw [State.countVal, State.countVal, ht.counts, hu.counts]
    · rintro a ⟨⟩
      exact ⟨_, ht.valueVal_valDst hready, hu.valueVal_valDst hready⟩
  · exact ⟨_, decodeWith_of_unterminated (decodeContract_of_ready hready) hunterm, rfl,
      fun hok => absurd hok (incompleted_status_ne_ok s src vd consDst)⟩

/-- Settles O33: DECU applies nothing to the accumulator, DECS applies ZZDEC. -/
theorem decsFollowsDecu : Obligations.DecsFollowsDecu := by
  constructor
  · intro src valDst consDst s t h
    exact decodeWith_follows (fun x => x) zzdec h
  · intro src valDst consDst s u h
    obtain ⟨t, ht, -⟩ := decodeWith_follows zzdec (fun x => x) h
    exact ⟨t, ht⟩

/-! ### Working registers -/

theorem encodeUnsigned_registers {x : Word} {dst : Nat} {lenDst : Ref} {s t : State}
    (h : encodeUnsigned x (some dst) lenDst s = .next t) : EncodeRegisters x s t := by
  obtain ⟨hnone, -⟩ | ⟨d, -, -, rfl⟩ := encode_next h
  · cases hnone
  · exact encoded_registers x d lenDst s

/-- A decode that answers kept the contract. -/
theorem decodeReady_of_decodeWith {post : Word → Word} {src valDst : Nat} {consDst : Ref} {s t : State}
    (h : decodeWith post (some src) (some valDst) consDst s = .next t) : DecodeReady s src valDst consDst := by
  obtain ⟨hnone | hnone, -⟩ | ⟨a, vd, ha, hvd, hready, -⟩ := decode_next h
  · cases hnone
  · cases hnone
  · cases ha
    cases hvd
    exact hready

theorem decodeWith_registers {post : Word → Word} {src valDst : Nat} {consDst : Ref} {s t : State}
    (h : decodeWith post (some src) (some valDst) consDst s = .next t) :
    (∀ k, Terminates s src k → DecodeRegisters src (k + 1) s t) ∧
    (Unterminated s src → DecodeRegisters src maxLen s t) := by
  have hc := decodeContract_of_ready (decodeReady_of_decodeWith h)
  constructor
  · intro k hterm
    rw [decodeWith_of_terminates hc hterm] at h
    cases h
    exact decoded_registers post src valDst consDst hterm.inCap s
  · intro hunterm
    rw [decodeWith_of_unterminated hc hunterm] at h
    cases h
    exact incompleted_registers src valDst consDst s

/-- Settles O50: the registers of the shared encode and of the shared decode. -/
theorem workingRegistersAfter : Obligations.WorkingRegistersAfter := by
  refine ⟨?encu, ?encs, ?decode⟩
  case encu => exact fun x _ _ _ _ h => encodeUnsigned_registers (x := x) h
  case encs => exact fun x _ _ _ _ h => encodeUnsigned_registers (x := zzenc x) h
  case decode =>
    rintro src valDst consDst s t (hdecu | hdecs)
    · exact decodeWith_registers (post := fun x => x) hdecu
    · exact decodeWith_registers (post := zzdec) hdecs

end Sys2Proof.Machine
end

section
/-!
PROOFS. The course of an operation: which closed form it answers with and from which data, apart from the state it is run
from. An operation that answers takes a course that fits the state (`exec_next`), and takes it from every other state that
fits it (`exec_of_fits`). So to run an operation again, or after another one, is to show that its course still fits:
the buffers and objects are in their places and the bytes it reads are the same (`Course.Fits.of_samePlaces`).
-/

namespace Sys2Proof.Machine

/-- What an operation that answers does. -/
inductive Course where
  /-- A required reference is ABSENT (R64, R72). -/
  | turnedAway
  /-- An encode of the 64-bit unsigned `x` that answers OK. -/
  | encoded (x : Word) (dst : Nat) (lenDst : Ref)
  /-- A decode that meets its terminating byte at index `k`. -/
  | decoded (post : Word → Word) (src valDst : Nat) (consDst : Ref) (k : Nat)
  /-- A decode that reads MAXLEN continuation bytes. -/
  | incompleted (src valDst : Nat) (consDst : Ref)

/-- The state a course leaves. -/
def Course.next : Course → State → State
  | .turnedAway, s => s.report .invalidArgument
  | .encoded x dst lenDst, s => s.encoded x dst lenDst
  | .decoded post src valDst consDst k, s => s.decoded post src valDst consDst k
  | .incompleted src valDst consDst, s => s.incompleted src valDst consDst

/-- The state keeps the contract and holds a source that leads to the course. -/
def Course.Fits : Course → State → Prop
  | .turnedAway, _ => True
  | .encoded x dst lenDst, s => EncodeReady s dst lenDst (encLen x)
  | .decoded _ src valDst consDst k, s => DecodeReady s src valDst consDst ∧ Terminates s src k
  | .incompleted src valDst consDst, s => DecodeReady s src valDst consDst ∧ Unterminated s src

/-- The courses of an encode. -/
inductive EncodeTakes (x : Word) : (dst lenDst : Ref) → Course → Prop
  | turnedAway (lenDst : Ref) : EncodeTakes x none lenDst .turnedAway
  | encoded (d : Nat) (lenDst : Ref) : EncodeTakes x (some d) lenDst (.encoded x d lenDst)

/-- The courses of a decode. -/
inductive DecodeTakes (post : Word → Word) : (src valDst consDst : Ref) → Course → Prop
  | turnedAway {src valDst : Ref} (consDst : Ref) (h : src = none ∨ valDst = none) :
    DecodeTakes post src valDst consDst .turnedAway
  | decoded (a vd : Nat) (consDst : Ref) (k : Nat) :
    DecodeTakes post (some a) (some vd) consDst (.decoded post a vd consDst k)
  | incompleted (a vd : Nat) (consDst : Ref) :
    DecodeTakes post (some a) (some vd) consDst (.incompleted a vd consDst)

/-- The courses of an operation. -/
def Takes : Instr → Course → Prop
  | .encu x dst lenDst => EncodeTakes x dst lenDst
  | .decu src valDst consDst => DecodeTakes (fun x => x) src valDst consDst
  | .encs x dst lenDst => EncodeTakes (zzenc x) dst lenDst
  | .decs src valDst consDst => DecodeTakes zzdec src valDst consDst

/-! ### An operation answers by taking a course that fits -/

theorem encodeUnsigned_next {x : Word} {dst lenDst : Ref} {s t : State} (h : encodeUnsigned x dst lenDst s = .next t) :
    ∃ c, EncodeTakes x dst lenDst c ∧ c.Fits s ∧ t = c.next s := by
  obtain ⟨rfl, rfl⟩ | ⟨d, rfl, hready, rfl⟩ := encode_next h
  · exact ⟨_, .turnedAway lenDst, trivial, rfl⟩
  · exact ⟨_, .encoded d lenDst, hready, rfl⟩

theorem encodeUnsigned_of_fits {x : Word} {dst lenDst : Ref} {s : State} {c : Course} (h : EncodeTakes x dst lenDst c)
    (hfits : c.Fits s) : encodeUnsigned x dst lenDst s = .next (c.next s) := by
  cases h with
  | turnedAway => rfl
  | encoded d => exact encode_of_ready hfits

theorem decodeWith_next {post : Word → Word} {src valDst consDst : Ref} {s t : State}
    (h : decodeWith post src valDst consDst s = .next t) :
    ∃ c, DecodeTakes post src valDst consDst c ∧ c.Fits s ∧ t = c.next s := by
  obtain ⟨habsent, rfl⟩ | ⟨a, vd, rfl, rfl, hready, ⟨k, hterm, rfl⟩ | ⟨hunterm, rfl⟩⟩ := decode_next h
  · exact ⟨_, .turnedAway consDst habsent, trivial, rfl⟩
  · exact ⟨_, .decoded a vd consDst k, ⟨hready, hterm⟩, rfl⟩
  · exact ⟨_, .incompleted a vd consDst, ⟨hready, hunterm⟩, rfl⟩

theorem decodeWith_of_fits {post : Word → Word} {src valDst consDst : Ref} {s : State} {c : Course}
    (h : DecodeTakes post src valDst consDst c) (hfits : c.Fits s) :
    decodeWith post src valDst consDst s = .next (c.next s) := by
  cases h with
  | turnedAway _ habsent => exact decodeWith_absent post consDst s habsent
  | decoded a vd _ k => exact decodeWith_of_terminates (decodeContract_of_ready hfits.1) hfits.2
  | incompleted a vd => exact decodeWith_of_unterminated (decodeContract_of_ready hfits.1) hfits.2

theorem exec_next {i : Instr} {s t : State} (h : exec i s = .next t) : ∃ c, Takes i c ∧ c.Fits s ∧ t = c.next s := by
  cases i with
  | encu x dst lenDst => exact encodeUnsigned_next (x := x) h
  | decu src valDst consDst => exact decodeWith_next (post := fun x => x) h
  | encs x dst lenDst => exact encodeUnsigned_next (x := zzenc x) h
  | decs src valDst consDst => exact decodeWith_next (post := zzdec) h

theorem exec_of_fits {i : Instr} {s : State} {c : Course} (h : Takes i c) (hfits : c.Fits s) :
    exec i s = .next (c.next s) := by
  cases i with
  | encu x dst lenDst => exact encodeUnsigned_of_fits (x := x) h hfits
  | decu src valDst consDst => exact decodeWith_of_fits (post := fun x => x) h hfits
  | encs x dst lenDst => exact encodeUnsigned_of_fits (x := zzenc x) h hfits
  | decs src valDst consDst => exact decodeWith_of_fits (post := zzdec) h hfits

/-! ### What a course reads and writes -/

/-- The address is one of those whose byte a decode reads. -/
def Course.Reads : Course → Nat → Prop
  | .turnedAway, _ => False
  | .encoded _ _ _, _ => False
  | .decoded _ src _ _ k, a => src ≤ a ∧ a < src + (k + 1)
  | .incompleted src _ _, a => src ≤ a ∧ a < src + maxLen

/-- The source of a decode. -/
def Course.src : Course → Ref
  | .turnedAway => none
  | .encoded _ _ _ => none
  | .decoded _ src _ _ _ => some src
  | .incompleted src _ _ => some src

/-- The address an encode stores its bytes from. -/
def Course.storeBase : Course → Nat
  | .turnedAway => 0
  | .encoded _ dst _ => dst
  | .decoded _ _ _ _ _ => 0
  | .incompleted _ _ _ => 0

/-- The bytes an encode stores. -/
def Course.stores : Course → List Byte
  | .turnedAway => []
  | .encoded x _ _ => canonical x
  | .decoded _ _ _ _ _ => []
  | .incompleted _ _ _ => []

/-- The count destination a course writes. -/
def Course.countDst : Course → Ref
  | .turnedAway => none
  | .encoded _ _ lenDst => lenDst
  | .decoded _ _ _ consDst _ => consDst
  | .incompleted _ _ consDst => consDst

/-- The value destination a course writes. -/
def Course.valueDst : Course → Ref
  | .turnedAway => none
  | .encoded _ _ _ => none
  | .decoded _ _ valDst _ _ => some valDst
  | .incompleted _ valDst _ => some valDst

/-- What the count destination holds then, as a function of what it held. -/
def Course.newCount (s : State) : Course → Nat → Nat
  | .turnedAway, old => old
  | .encoded x _ _, _ => encLen x
  | .decoded _ _ _ _ k, _ => k + 1
  | .incompleted _ _ _, old => Config.freeCount s.draws old (BitVec.ofNat 4 maxLen).toNat

/-- What the value destination holds then, as a function of what it held. -/
def Course.newValue (s : State) : Course → Word → Word
  | .turnedAway, old => old
  | .encoded _ _ _, old => old
  | .decoded post src _ _ k, _ => post (streamValue (s.mem.bytes src (k + 1)))
  | .incompleted src _ _, old => Config.freeValue s.draws old (streamValue (s.mem.bytes src maxLen))

/-- The status a course answers. -/
def Course.status : Course → Status
  | .turnedAway => .invalidArgument
  | .encoded _ _ _ => .ok
  | .decoded _ _ _ _ _ => .ok
  | .incompleted _ _ _ => .incompleteStream

variable (c : Course) (s : State)

@[simp] theorem Course.next_status : (c.next s).status = some c.status := by cases c <;> rfl

@[simp] theorem Course.next_bufs : (c.next s).bufs = s.bufs := by
  cases c with
  | turnedAway => rfl
  | encoded x dst lenDst => exact (encoded_effect x dst lenDst s).bufs
  | decoded post src valDst consDst k => exact (decoded_effect post src valDst consDst k s).bufs
  | incompleted src valDst consDst => exact (incompleted_effect src valDst consDst s).bufs

theorem Course.next_mem : (c.next s).mem = s.mem.write c.storeBase c.stores := by
  cases c with
  | turnedAway => rfl
  | encoded x dst lenDst => cases lenDst <;> rfl
  | decoded post src valDst consDst k => exact (decoded_effect post src valDst consDst k s).mem
  | incompleted src valDst consDst => exact (incompleted_effect src valDst consDst s).mem

theorem Course.next_counts : (c.next s).counts = (s.updateCount c.countDst (c.newCount s)).counts := by
  cases c with
  | turnedAway => rfl
  | encoded x dst lenDst => cases lenDst <;> rfl
  | decoded post src valDst consDst k => cases consDst <;> rfl
  | incompleted src valDst consDst => exact incompleted_counts s src valDst consDst

theorem Course.next_values : (c.next s).values = (s.updateValue c.valueDst (c.newValue s)).values := by
  cases c with
  | turnedAway => rfl
  | encoded x dst lenDst => cases lenDst <;> rfl
  | decoded post src valDst consDst k => cases consDst <;> rfl
  | incompleted src valDst consDst => exact incompleted_values s src valDst consDst

variable {c s}

/-! ### A course works on the references of its operation -/

section
variable {i : Instr}

theorem Takes.src_eq (h : Takes i c) : c.src = none ∨ c.src = srcRef i := by
  cases i <;> cases h <;> simp [Course.src, srcRef]

theorem Takes.dst_eq (h : Takes i c) : c.stores = [] ∨ dstRef i = some c.storeBase := by
  cases i <;> cases h <;> simp [Course.stores, Course.storeBase, dstRef]

theorem Takes.countDst_eq (h : Takes i c) : c.countDst = none ∨ c.countDst = countRef i := by
  cases i <;> cases h <;> simp [Course.countDst, countRef]

theorem Takes.valueDst_eq (h : Takes i c) : c.valueDst = none ∨ c.valueDst = valueRef i := by
  cases i <;> cases h <;> simp [Course.valueDst, valueRef]

end

/-! ### A course that fits works inside the storage behind its references -/

theorem Course.length_stores_le (c : Course) : c.stores.length ≤ maxLen := by
  cases c with
  | encoded x => simpa [Course.stores] using encLen_le_maxLen x
  | turnedAway | decoded | incompleted => exact Nat.zero_le _

theorem Course.Fits.stores_le_room (h : c.Fits s) : c.stores.length ≤ s.room c.storeBase := by
  cases c with
  | encoded x dst lenDst => simpa [Course.stores, Course.storeBase] using EncodeReady.room h
  | turnedAway | decoded | incompleted => exact Nat.zero_le _

theorem Course.Fits.reads_lt_room (h : c.Fits s) {a : Nat} (ha : c.Reads a) :
    ∃ src, c.src = some src ∧ src ≤ a ∧ a < src + s.room src := by
  cases c with
  | turnedAway | encoded => exact ha.elim
  | decoded post src valDst consDst k =>
    have hroom := h.2.inRoom
    exact ⟨src, rfl, ha.1, by have := ha.2; omega⟩
  | incompleted src valDst consDst =>
    have hroom := h.2.inRoom
    exact ⟨src, rfl, ha.1, by have := ha.2; omega⟩

theorem DecodeReady.exists_count {src valDst a : Nat} {consDst : Ref} (h : DecodeReady s src valDst consDst)
    (ha : consDst = some a) : ∃ o, s.countAt a = some o := by
  obtain ⟨_, _, _, hcount⟩ := h.value
  obtain ⟨o, ho, -⟩ := hcount a ha
  exact ⟨o, ho⟩

theorem Course.Fits.exists_count (h : c.Fits s) {a : Nat} (ha : c.countDst = some a) : ∃ o, s.countAt a = some o := by
  cases c with
  | turnedAway => cases ha
  | encoded x dst lenDst =>
    obtain ⟨o, ho, -⟩ := EncodeReady.count h a ha
    exact ⟨o, ho⟩
  | decoded post src valDst consDst k => exact h.1.exists_count ha
  | incompleted src valDst consDst => exact h.1.exists_count ha

theorem DecodeReady.exists_value {src valDst : Nat} {consDst : Ref} (h : DecodeReady s src valDst consDst) :
    ∃ o, s.valueAt valDst = some o :=
  h.value.imp fun _ ho => ho.1

theorem Course.Fits.exists_value (h : c.Fits s) {a : Nat} (ha : c.valueDst = some a) : ∃ o, s.valueAt a = some o := by
  cases c with
  | turnedAway | encoded => cases ha
  | decoded post src valDst consDst k =>
    cases ha
    exact h.1.exists_value
  | incompleted src valDst consDst =>
    cases ha
    exact h.1.exists_value

/-! ### A course fits every state with the same places and the same bytes to read -/

/-- The buffers, and the objects of `s` at their addresses with their extents, are in `t` too. -/
structure SamePlaces (s t : State) : Prop where
  bufs : t.bufs = s.bufs
  counts : ∀ a o, s.countAt a = some o → ∃ p, t.countAt a = some p ∧ p.span = o.span
  values : ∀ a o, s.valueAt a = some o → ∃ p, t.valueAt a = some p ∧ p.span = o.span

section
variable {t : State}

theorem SamePlaces.setByte (s : State) (a : Nat) (b : Byte) : SamePlaces s (s.setByte a b) :=
  ⟨rfl, fun _ o ho => ⟨o, ho, rfl⟩, fun _ o ho => ⟨o, ho, rfl⟩⟩

theorem SamePlaces.next (c : Course) (s : State) : SamePlaces s (c.next s) := by
  refine ⟨c.next_bufs s, fun a o ho => ?_, fun a o ho => ?_⟩
  · rw [State.countAt_congr (c.next_counts s), State.countAt_updateCount, ho]
    split
    · exact ⟨_, rfl, rfl⟩
    · exact ⟨o, rfl, rfl⟩
  · rw [State.valueAt_congr (c.next_values s), State.valueAt_updateValue, ho]
    split
    · exact ⟨_, rfl, rfl⟩
    · exact ⟨o, rfl, rfl⟩

theorem EncodeReady.of_samePlaces {dst k : Nat} {lenDst : Ref} (h : EncodeReady s dst lenDst k) (hp : SamePlaces s t) :
    EncodeReady t dst lenDst k := by
  refine ⟨State.isDevice_congr hp.bufs dst ▸ h.plain, State.room_congr hp.bufs dst ▸ h.room, fun a ha => ?_⟩
  obtain ⟨o, ho, hapart⟩ := h.count a ha
  obtain ⟨p, hpt, hspan⟩ := hp.counts a o ho
  exact ⟨p, hpt, by rw [State.bufferSpan_congr hp.bufs, hspan, hapart]⟩

theorem DecodeReady.of_samePlaces {src valDst : Nat} {consDst : Ref} (h : DecodeReady s src valDst consDst)
    (hp : SamePlaces s t) : DecodeReady t src valDst consDst := by
  obtain ⟨x, hx, hsrc, hcount⟩ := h.value
  obtain ⟨y, hy, hyspan⟩ := hp.values valDst x hx
  have hbuf := State.bufferSpan_congr hp.bufs src
  refine ⟨State.isDevice_congr hp.bufs src ▸ h.plain, y, hy, by rw [hbuf, hyspan, hsrc], fun a ha => ?_⟩
  obtain ⟨o, ho, hsrcCount, hvalueCount⟩ := hcount a ha
  obtain ⟨p, hpt, hspan⟩ := hp.counts a o ho
  exact ⟨p, hpt, by rw [hbuf, hspan, hsrcCount], by rw [hyspan, hspan, hvalueCount]⟩

theorem Terminates.of_bytes {src k : Nat} (h : Terminates s src k) (hb : t.bufs = s.bufs)
    (hm : ∀ a, src ≤ a ∧ a < src + (k + 1) → t.mem.get a = s.mem.get a) : Terminates t src k := by
  refine ⟨h.inCap, State.room_congr hb src ▸ h.inRoom, fun j hj => ?_, ?_⟩
  · rw [hm _ (by omega)]
    exact h.before j hj
  · rw [hm _ (by omega)]
    exact h.last

theorem Unterminated.of_bytes {src : Nat} (h : Unterminated s src) (hb : t.bufs = s.bufs)
    (hm : ∀ a, src ≤ a ∧ a < src + maxLen → t.mem.get a = s.mem.get a) : Unterminated t src := by
  refine ⟨State.room_congr hb src ▸ h.inRoom, fun j hj => ?_⟩
  rw [hm _ (by omega)]
  exact h.all j hj

theorem Course.Fits.of_samePlaces (h : c.Fits s) (hp : SamePlaces s t)
    (hm : ∀ a, c.Reads a → t.mem.get a = s.mem.get a) : c.Fits t := by
  cases c with
  | turnedAway => trivial
  | encoded x dst lenDst => exact EncodeReady.of_samePlaces h hp
  | decoded post src valDst consDst k => exact ⟨h.1.of_samePlaces hp, h.2.of_bytes hp.bufs hm⟩
  | incompleted src valDst consDst => exact ⟨h.1.of_samePlaces hp, h.2.of_bytes hp.bufs hm⟩

end

end Sys2Proof.Machine
end

section
/-!
PROOFS. Bytes that do not matter to a decode (20_memory.md R27, 30_encoding.md R48). A decode of a source whose bytes read
are the same, or have the same value, takes the same course; what it leaves differs in the one byte that was stored.
-/

namespace Sys2Proof.Machine

variable {s : State} {a : Nat} {b : Byte}

/-! ### A stored byte that leaves the value read as it was -/

theorem decoded_setByte (post : Word → Word) {src k : Nat} (valDst : Nat) (consDst : Ref)
    (h : streamValue ((s.mem.set a b).bytes src (k + 1)) = streamValue (s.mem.bytes src (k + 1))) :
    (s.setByte a b).decoded post src valDst consDst k = (s.decoded post src valDst consDst k).setByte a b := by
  simp only [State.decoded, State.fed, State.setByte_mem, h, Memory.bytes_length]
  cases consDst <;> rfl

theorem incompleted_setByte {src : Nat} (valDst : Nat) (consDst : Ref)
    (h : streamValue ((s.mem.set a b).bytes src maxLen) = streamValue (s.mem.bytes src maxLen)) :
    (s.setByte a b).incompleted src valDst consDst = (s.incompleted src valDst consDst).setByte a b := by
  simp only [State.incompleted, State.fed, State.setByte_mem, h, Memory.bytes_length]
  cases consDst <;> simp only [State.freeOutputs, State.updateValue, State.updateCount, State.report, State.setByte]

theorem bytes_set_outside {m : Memory} {src k : Nat} (h : ¬ (src ≤ a ∧ a < src + k)) :
    (m.set a b).bytes src k = m.bytes src k :=
  Memory.bytes_congr fun j hj => Memory.get_set_other m b (by omega)

/-! ### Bytes that are not read -/

theorem DecodeTakes.next_setByte {post : Word → Word} {src valDst consDst : Ref} {c : Course}
    (h : DecodeTakes post src valDst consDst c) (hread : ¬ c.Reads a) :
    c.next (s.setByte a b) = (c.next s).setByte a b := by
  cases h with
  | turnedAway => rfl
  | decoded src vd _ k => exact decoded_setByte post vd consDst (congrArg streamValue (bytes_set_outside hread))
  | incompleted src vd => exact incompleted_setByte vd consDst (congrArg streamValue (bytes_set_outside hread))

/-- The bytes a decode reads are counted by the index it leaves. -/
theorem DecodeTakes.reads_lt_index {post : Word → Word} {src : Nat} {valDst consDst : Ref} {c : Course}
    (h : DecodeTakes post (some src) valDst consDst c) (hfits : c.Fits s) (hread : c.Reads a) :
    src ≤ a ∧ a < src + (c.next s).i.toNat := by
  cases h with
  | turnedAway => exact hread.elim
  | decoded _ vd _ k =>
    rw [Course.next, (decoded_registers post src vd consDst hfits.2.inCap s).index]
    exact hread
  | incompleted _ vd =>
    rw [Course.next, (incompleted_registers src vd consDst s).index]
    exact hread

theorem decodeWith_setByte_of_not_read {post : Word → Word} {src : Nat} {valDst consDst : Ref} {t : State}
    (h : decodeWith post (some src) valDst consDst s = .next t) (ha : a < src ∨ src + t.i.toNat ≤ a) :
    decodeWith post (some src) valDst consDst (s.setByte a b) = .next (t.setByte a b) := by
  obtain ⟨c, htakes, hfits, rfl⟩ := decodeWith_next h
  have hread : ¬ c.Reads a := fun hread => by
    have := htakes.reads_lt_index hfits hread
    omega
  have hfits' : c.Fits (s.setByte a b) := hfits.of_samePlaces (.setByte s a b) fun a' ha' =>
    Memory.get_set_other s.mem b fun heq => hread (heq ▸ ha')
  rw [decodeWith_of_fits htakes hfits', htakes.next_setByte hread]

/-- Settles O17: both decodes, whatever they answer. -/
theorem onlyTheBytesReadMatter : Obligations.OnlyTheBytesReadMatter := by
  intro src valDst consDst s t a b ha
  constructor
  · exact fun h _ => decodeWith_setByte_of_not_read (post := fun x => x) h ha
  · exact fun h _ => decodeWith_setByte_of_not_read (post := zzdec) h ha

/-! ### Overflow bits -/

/-- Of the last group only bit 0 stays inside the 64 bits (R48). -/
theorem shl64_lastShift (b : Byte) :
    shl64 (dataBits b) lastShift = if b.getLsbD 0 then 0x8000000000000000#64 else 0#64 := by
  revert b
  decide

theorem streamValue_bytes_set_last {m : Memory} {src : Nat}
    (h : b.getLsbD 0 = (m.get (src + (maxLen - 1))).getLsbD 0) :
    streamValue ((m.set (src + (maxLen - 1)) b).bytes src maxLen) = streamValue (m.bytes src maxLen) := by
  have hlast : shl64 (dataBits b) lastShift = shl64 (dataBits (m.get (src + (maxLen - 1)))) lastShift := by
    rw [shl64_lastShift, shl64_lastShift, h]
  have hsplit (p : Memory) : streamValue (p.bytes src maxLen) =
      streamValue (p.bytes src (maxLen - 1)) ||| shl64 (dataBits (p.get (src + (maxLen - 1)))) lastShift := by
    rw [show maxLen = maxLen - 1 + 1 from rfl, Memory.bytes_succ_last, streamValue_append_one, Memory.bytes_length]
    rfl
  rw [hsplit, hsplit, Memory.get_set_same, hlast, bytes_set_outside (by omega)]

theorem Terminates.setByte_last {src k : Nat} (h : Terminates s src k) (hb : isCont b = false) :
    Terminates (s.setByte (src + k) b) src k := by
  refine ⟨h.inCap, h.inRoom, fun j hj => ?_, ?_⟩
  · rw [State.setByte_mem, Memory.get_set_other _ _ (by omega)]
    exact h.before j hj
  · rw [State.setByte_mem, Memory.get_set_same]
    exact hb

theorem decodeWith_setByte_of_overflow {post : Word → Word} {src : Nat} {valDst consDst : Ref} {t : State}
    (hok : t.status = some .ok) (hten : t.i.toNat = maxLen) (hb : isCont b = false)
    (hbit : b.getLsbD 0 = (s.mem.get (src + (maxLen - 1))).getLsbD 0)
    (h : decodeWith post (some src) valDst consDst s = .next t) :
    decodeWith post (some src) valDst consDst (s.setByte (src + (maxLen - 1)) b) =
      .next (t.setByte (src + (maxLen - 1)) b) := by
  obtain ⟨c, htakes, hfits, rfl⟩ := decodeWith_next h
  rw [Course.next_status] at hok
  cases htakes with
  | turnedAway => cases hok
  | incompleted => cases hok
  | decoded _ vd _ k =>
    obtain ⟨hready, hterm⟩ := hfits
    have hk : k + 1 = maxLen := (decoded_registers post src vd consDst hterm.inCap s).index.symm.trans hten
    obtain rfl : k = maxLen - 1 := by omega
    rw [decodeWith_of_terminates (decodeContract_of_ready (hready.of_samePlaces (.setByte s _ b))) (hterm.setByte_last hb),
      decoded_setByte post vd consDst (k := maxLen - 1) (streamValue_bytes_set_last hbit)]
    rfl

/-- Settles O18: both decodes. -/
theorem overflowBitsAreIgnored : Obligations.OverflowBitsAreIgnored := by
  intro src valDst consDst s t b hok hten hb hbit
  constructor
  · exact decodeWith_setByte_of_overflow (post := fun x => x) hok hten hb hbit
  · exact decodeWith_setByte_of_overflow (post := zzdec) hok hten hb hbit

end Sys2Proof.Machine
end

section
/-!
PROOFS. Scalar objects as lists: a write behind a reference is a map at one address (`putAt`). Maps at two addresses commute,
and a constant absorbs whatever was written there before.
-/

namespace Sys2Proof.Machine

/-! ### Maps at one address of a list of objects -/

section
variable {α : Type} {addr : α → Nat}

/-- Replace the objects behind a reference; ABSENT does nothing. -/
def putAt (addr : α → Nat) (r : Ref) (f : α → α) (l : List α) : List α :=
  match r with
  | none => l
  | some a => l.map fun x => if addr x = a then f x else x

theorem putAt_commute {r q : Ref} {f g : α → α} (hf : ∀ x, addr (f x) = addr x) (hg : ∀ x, addr (g x) = addr x)
    (h : ∀ a, r = some a → q ≠ some a) : Function.Commute (putAt addr r f) (putAt addr q g) := by
  intro l
  match r, q with
  | none, _ => rfl
  | some a, none => rfl
  | some a, some b =>
    have hab : b ≠ a := fun e => h a rfl (congrArg some e)
    simp only [putAt, List.map_map]
    refine List.map_congr_left fun x _ => ?_
    by_cases ha : addr x = a
    · simp [ha, hf, hab.symm]
    · by_cases hb : addr x = b <;> simp [ha, hb, hg, hab]

theorem putAt_absorb {r : Ref} {f g : α → α} (hf : ∀ x, addr (f x) = addr x) (hgf : ∀ x, g (f x) = g x) (l : List α) :
    putAt addr r g (putAt addr r f l) = putAt addr r g l := by
  cases r with
  | none => rfl
  | some a =>
    simp only [putAt, List.map_map]
    refine List.map_congr_left fun x _ => ?_
    by_cases ha : addr x = a <;> simp [ha, hf, hgf]

end

/-- A count object with its content replaced. -/
def CountObj.put (f : Nat → Nat) (o : CountObj) : CountObj := { o with val := f o.val }

/-- A 64-bit object with its content replaced. -/
def ValueObj.put (f : Word → Word) (o : ValueObj) : ValueObj := { o with val := f o.val }

theorem State.updateCount_eq (s : State) (r : Ref) (f : Nat → Nat) :
    s.updateCount r f = { s with counts := putAt CountObj.addr r (.put f) s.counts } := by cases r <;> rfl

theorem State.updateValue_eq (s : State) (r : Ref) (f : Word → Word) :
    s.updateValue r f = { s with values := putAt ValueObj.addr r (.put f) s.values } := by cases r <;> rfl

theorem putCount_absorb (r : Ref) (f : Nat → Nat) (k : Nat) (l : List CountObj) :
    putAt CountObj.addr r (.put fun _ => k) (putAt CountObj.addr r (.put f) l) =
      putAt CountObj.addr r (.put fun _ => k) l :=
  putAt_absorb (f := .put f) (fun _ => rfl) (fun _ => rfl) l

theorem putValue_absorb (r : Ref) (f : Word → Word) (x : Word) (l : List ValueObj) :
    putAt ValueObj.addr r (.put fun _ => x) (putAt ValueObj.addr r (.put f) l) =
      putAt ValueObj.addr r (.put fun _ => x) l :=
  putAt_absorb (f := .put f) (fun _ => rfl) (fun _ => rfl) l

theorem putCount_commute {r q : Ref} (f g : Nat → Nat) (h : ∀ a, r = some a → q ≠ some a) :
    Function.Commute (putAt CountObj.addr r (.put f)) (putAt CountObj.addr q (.put g)) :=
  putAt_commute (fun _ => rfl) (fun _ => rfl) h

theorem putValue_commute {r q : Ref} (f g : Word → Word) (h : ∀ a, r = some a → q ≠ some a) :
    Function.Commute (putAt ValueObj.addr r (.put f)) (putAt ValueObj.addr q (.put g)) :=
  putAt_commute (fun _ => rfl) (fun _ => rfl) h

end Sys2Proof.Machine
end

section
/-!
PROOFS. An operation issued again (60_exceptions.md R102). Its course still fits the state it left, for it moves no object and
stores no byte it reads; and what it writes there a second time is there already, unless the spec leaves it unspecified.
-/

namespace Sys2Proof.Machine

variable {c : Course} {s : State}

/-- The address is one of those an encode stores a byte at. -/
def Course.Stores (c : Course) (a : Nat) : Prop := c.storeBase ≤ a ∧ a < c.storeBase + c.stores.length

theorem Course.next_mem_get_of_stores {a : Nat} (h : c.Stores a) :
    (c.next s).mem.get a = c.stores.getD (a - c.storeBase) Memory.unlisted := by
  rw [Course.next_mem, Memory.get_write]
  exact if_pos h

theorem Course.next_mem_get_of_not_stores {a : Nat} (h : ¬ c.Stores a) : (c.next s).mem.get a = s.mem.get a := by
  rw [Course.next_mem, Memory.get_write]
  exact if_neg h

/-- No course stores where it reads: an encode reads no byte and a decode stores none. -/
theorem Course.Reads.not_stores {a : Nat} (h : c.Reads a) : ¬ c.Stores a := by
  cases c with
  | turnedAway | encoded => exact h.elim
  | decoded | incompleted => exact fun ⟨hle, hlt⟩ => absurd hlt (Nat.not_lt.2 hle)

theorem Course.Fits.next (h : c.Fits s) : c.Fits (c.next s) :=
  h.of_samePlaces (.next c s) fun _ ha => Course.next_mem_get_of_not_stores ha.not_stores

theorem Memory.write_write_self {m : Memory} (a : Nat) (bs : List Byte) (h : m.wf = true) :
    (m.write a bs).write a bs = m.write a bs := by
  have hwf := Memory.wf_write a bs h
  refine Memory.ext_of_wf (Memory.wf_write a bs hwf) hwf fun c => ?_
  rw [Memory.get_write, Memory.get_write]
  split <;> rfl

/-- What a course writes again, when the spec specifies it all, is there already. -/
theorem Course.next_next (hwf : s.mem.wf = true) (hspec : c.status ≠ .incompleteStream) :
    c.next (c.next s) = c.next s := by
  cases c with
  | turnedAway => rfl
  | encoded x dst lenDst =>
    simp only [Course.next, State.encoded, State.storeCount, State.updateCount_eq, State.report, putCount_absorb,
      Memory.write_write_self _ _ hwf]
  | decoded post src valDst consDst k =>
    simp only [Course.next, State.decoded, State.fed, State.storeCount, State.storeValue, State.updateCount_eq,
      State.updateValue_eq, State.report, putCount_absorb, putValue_absorb]
  | incompleted => exact absurd rfl hspec

/-- Settles O42: the course is taken again. -/
theorem repeatedRequestAnswersTheSame : Obligations.RepeatedRequestAnswersTheSame := by
  intro i s t hwf h
  obtain ⟨c, htakes, hfits, rfl⟩ := exec_next h
  refine ⟨c.next (c.next s), exec_of_fits htakes hfits.next, by simp, ?_, fun hspec => ?_⟩
  · rw [Course.next_mem, Course.next_mem, Memory.write_write_self _ _ hwf]
  · exact Course.next_next hwf (by simpa using hspec)

end Sys2Proof.Machine
end

section
/-!
PROOFS. Two operations on disjoint storage (20_memory.md R37). Each leaves the other's places and the bytes the other reads,
so each course still fits after the other. Their stores do not meet, so bytes read the same in either order. Their writes to
objects commute, and putting an incomplete decode's destinations aside absorbs the free value that was drawn, which is all that
the order could change.
-/

namespace Sys2Proof.Machine

/-! ### Two writes in either order -/

/-- One write is `F` when it is made before the other and `F'` when it is made after it, the other is `G'` before and `G` after;
`A` and `B` put aside what they leave unspecified. If `A` cannot tell `F` from `F'` nor `B` tell `G` from `G'`, and what
belongs to one write commutes with what belongs to the other, the order does not matter. -/
theorem aside_interchange {β : Type} {A B F F' G G' : β → β}
    (hF : ∀ l, A (F l) = A (F' l)) (hG : ∀ l, B (G l) = B (G' l)) (hAB : Function.Commute A B)
    (hAG : Function.Commute A G) (hBF : Function.Commute B F') (hFG : Function.Commute F' G) (l : β) :
    B (A (G (F l))) = B (A (F' (G' l))) := by
  calc B (A (G (F l))) = B (G (A (F l))) := by rw [hAG.eq]
    _ = B (G (A (F' l))) := by rw [hF]
    _ = B (A (F' (G l))) := by rw [← hAG.eq, hFG.eq]
    _ = A (F' (B (G l))) := by rw [← hAB.eq, hBF.eq]
    _ = A (F' (B (G' l))) := by rw [hG]
    _ = B (A (F' (G' l))) := by rw [← hBF.eq, hAB.eq]

/-! ### What is put aside of a course -/

/-- The count destination whose content the spec leaves unspecified. -/
def Course.looseCount : Course → Ref
  | .turnedAway => none
  | .encoded _ _ _ => none
  | .decoded _ _ _ _ _ => none
  | .incompleted _ _ consDst => consDst

/-- The value destination whose content the spec leaves unspecified. -/
def Course.looseValue : Course → Ref
  | .turnedAway => none
  | .encoded _ _ _ => none
  | .decoded _ _ _ _ _ => none
  | .incompleted _ valDst _ => some valDst

section
variable {c : Course} {i : Instr} {s t : State}

theorem Course.countDst_of_looseCount (c : Course) {a : Nat} (h : c.looseCount = some a) : c.countDst = some a := by
  cases c with
  | turnedAway | encoded | decoded => cases h
  | incompleted => exact h

theorem Course.valueDst_of_looseValue (c : Course) {a : Nat} (h : c.looseValue = some a) : c.valueDst = some a := by
  cases c with
  | turnedAway | encoded | decoded => cases h
  | incompleted => exact h

theorem Takes.setAside_counts (h : Takes i c) (t : State) :
    (t.setAside i (some c.status)).counts = putAt CountObj.addr c.looseCount (.put fun _ => 0) t.counts := by
  rw [State.setAside_counts, State.updateCount_eq]
  cases i <;> cases h <;> rfl

theorem Takes.setAside_values (h : Takes i c) (t : State) :
    (t.setAside i (some c.status)).values = putAt ValueObj.addr c.looseValue (.put fun _ => 0#64) t.values := by
  rw [State.setAside_values, State.updateValue_eq]
  cases i <;> cases h <;> rfl

theorem Course.next_counts_eq (c : Course) (s : State) :
    (c.next s).counts = putAt CountObj.addr c.countDst (.put (c.newCount s)) s.counts := by
  rw [Course.next_counts, State.updateCount_eq]

theorem Course.next_values_eq (c : Course) (s : State) :
    (c.next s).values = putAt ValueObj.addr c.valueDst (.put (c.newValue s)) s.values := by
  rw [Course.next_values, State.updateValue_eq]

/-- With the unspecified put aside, a count does not depend on the state the course is taken from. -/
theorem Course.putCount_aside (c : Course) (s t : State) (l : List CountObj) :
    putAt CountObj.addr c.looseCount (.put fun _ => 0) (putAt CountObj.addr c.countDst (.put (c.newCount s)) l) =
      putAt CountObj.addr c.looseCount (.put fun _ => 0) (putAt CountObj.addr c.countDst (.put (c.newCount t)) l) := by
  cases c with
  | turnedAway | encoded | decoded => rfl
  | incompleted src valDst consDst => exact (putCount_absorb consDst _ 0 l).trans (putCount_absorb consDst _ 0 l).symm

/-- With the unspecified put aside, a value depends on no more of that state than the bytes read. -/
theorem Course.putValue_aside (h : ∀ a, c.Reads a → t.mem.get a = s.mem.get a) (l : List ValueObj) :
    putAt ValueObj.addr c.looseValue (.put fun _ => 0#64) (putAt ValueObj.addr c.valueDst (.put (c.newValue s)) l) =
      putAt ValueObj.addr c.looseValue (.put fun _ => 0#64) (putAt ValueObj.addr c.valueDst (.put (c.newValue t)) l) := by
  cases c with
  | turnedAway | encoded => rfl
  | decoded post src valDst consDst k =>
    have hbytes : t.mem.bytes src (k + 1) = s.mem.bytes src (k + 1) :=
      Memory.bytes_congr fun j hj => h _ ⟨by omega, by omega⟩
    have hnew : Course.newValue t (.decoded post src valDst consDst k) =
        Course.newValue s (.decoded post src valDst consDst k) := by
      funext old
      simp only [Course.newValue, hbytes]
    rw [hnew]
  | incompleted src valDst consDst =>
    exact (putValue_absorb (some valDst) _ 0#64 l).trans (putValue_absorb (some valDst) _ 0#64 l).symm

end

/-! ### Addresses an operation works on -/

/-- The address lies in storage behind a present reference of the operation. -/
def State.Touches (s : State) (i : Instr) (a : Nat) : Prop := ∃ x ∈ s.storageOf i, x.base ≤ a ∧ a < x.base + x.len

section
variable {c : Course} {i j : Instr} {s : State} {a : Nat}

theorem State.DisjointStorage.not_touches (h : s.DisjointStorage i j) (hi : s.Touches i a) (hj : s.Touches j a) : False := by
  obtain ⟨x, hx, hxa⟩ := hi
  obtain ⟨y, hy, hya⟩ := hj
  have hapart := h x hx y hy
  simp only [Span.apart, Bool.or_eq_true, decide_eq_true_eq] at hapart
  omega

theorem touches_of_dstRef {d : Nat} (h : dstRef i = some d) (hle : d ≤ a) (hlt : a < d + s.room d) : s.Touches i a :=
  ⟨s.bufferSpan d, by simp [State.storageOf, State.bufferSpans, h], hle, hlt⟩

theorem touches_of_srcRef {d : Nat} (h : srcRef i = some d) (hle : d ≤ a) (hlt : a < d + s.room d) : s.Touches i a :=
  ⟨s.bufferSpan d, by simp [State.storageOf, State.bufferSpans, h], hle, hlt⟩

theorem touches_of_countRef {o : CountObj} (h : countRef i = some a) (ho : s.countAt a = some o) : s.Touches i a := by
  refine ⟨o.span, by simp [State.storageOf, h, ho], ?_⟩
  have haddr := State.addr_of_countAt ho
  simp only [CountObj.span]
  omega

theorem touches_of_valueRef {o : ValueObj} (h : valueRef i = some a) (ho : s.valueAt a = some o) : s.Touches i a := by
  refine ⟨o.span, by simp [State.storageOf, h, ho], ?_⟩
  have haddr := State.addr_of_valueAt ho
  simp only [ValueObj.span]
  omega

theorem Takes.touches_of_stores (h : Takes i c) (hfits : c.Fits s) (ha : c.Stores a) : s.Touches i a := by
  obtain ⟨hle, hlt⟩ := ha
  have hroom := hfits.stores_le_room
  rcases h.dst_eq with hnil | hdst
  · rw [hnil, List.length_nil] at hlt
    omega
  · exact touches_of_dstRef hdst hle (by omega)

theorem Takes.touches_of_reads (h : Takes i c) (hfits : c.Fits s) (ha : c.Reads a) : s.Touches i a := by
  obtain ⟨src, hsrc, hle, hlt⟩ := hfits.reads_lt_room ha
  rcases h.src_eq with hnone | heq
  · rw [hsrc] at hnone
    cases hnone
  · exact touches_of_srcRef (heq ▸ hsrc) hle hlt

theorem Takes.touches_of_countDst (h : Takes i c) (hfits : c.Fits s) (ha : c.countDst = some a) : s.Touches i a := by
  obtain ⟨o, ho⟩ := hfits.exists_count ha
  rcases h.countDst_eq with hnone | heq
  · rw [ha] at hnone
    cases hnone
  · exact touches_of_countRef (heq ▸ ha) ho

theorem Takes.touches_of_valueDst (h : Takes i c) (hfits : c.Fits s) (ha : c.valueDst = some a) : s.Touches i a := by
  obtain ⟨o, ho⟩ := hfits.exists_value ha
  rcases h.valueDst_eq with hnone | heq
  · rw [ha] at hnone
    cases hnone
  · exact touches_of_valueRef (heq ▸ ha) ho

end

/-! ### Courses that do not meet -/

/-- Two courses that write nothing the other reads or writes. -/
structure Course.Apart (c d : Course) : Prop where
  stores : ∀ a, c.Stores a → ¬ d.Stores a
  readsLeft : ∀ a, c.Reads a → ¬ d.Stores a
  readsRight : ∀ a, d.Reads a → ¬ c.Stores a
  counts : ∀ a, c.countDst = some a → d.countDst ≠ some a
  values : ∀ a, c.valueDst = some a → d.valueDst ≠ some a

theorem Course.apart_of_disjointStorage {c d : Course} {i j : Instr} {s : State} (h : s.DisjointStorage i j)
    (hc : Takes i c) (hd : Takes j d) (hcs : c.Fits s) (hds : d.Fits s) : c.Apart d where
  stores _ ha hb := h.not_touches (hc.touches_of_stores hcs ha) (hd.touches_of_stores hds hb)
  readsLeft _ ha hb := h.not_touches (hc.touches_of_reads hcs ha) (hd.touches_of_stores hds hb)
  readsRight _ ha hb := h.not_touches (hc.touches_of_stores hcs hb) (hd.touches_of_reads hds ha)
  counts _ ha hb := h.not_touches (hc.touches_of_countDst hcs ha) (hd.touches_of_countDst hds hb)
  values _ ha hb := h.not_touches (hc.touches_of_valueDst hcs ha) (hd.touches_of_valueDst hds hb)

section
variable {c d : Course} {s : State} (h : c.Apart d)
include h

theorem Course.Apart.next_mem_comm (a : Nat) : (d.next (c.next s)).mem.get a = (c.next (d.next s)).mem.get a := by
  by_cases hc : c.Stores a
  · rw [Course.next_mem_get_of_not_stores (h.stores a hc), Course.next_mem_get_of_stores hc, Course.next_mem_get_of_stores hc]
  · rw [Course.next_mem_get_of_not_stores (s := d.next s) hc]
    by_cases hd : d.Stores a
    · rw [Course.next_mem_get_of_stores hd, Course.next_mem_get_of_stores hd]
    · rw [Course.next_mem_get_of_not_stores hd, Course.next_mem_get_of_not_stores hc, Course.next_mem_get_of_not_stores hd]

theorem Course.Apart.fits_right (hfits : d.Fits s) : d.Fits (c.next s) :=
  hfits.of_samePlaces (.next c s) fun a ha => Course.next_mem_get_of_not_stores (h.readsRight a ha)

theorem Course.Apart.fits_left (hfits : c.Fits s) : c.Fits (d.next s) :=
  hfits.of_samePlaces (.next d s) fun a ha => Course.next_mem_get_of_not_stores (h.readsLeft a ha)

/-- The count objects agree once what either course leaves unspecified is put aside. -/
theorem Course.Apart.counts_comm :
    putAt CountObj.addr d.looseCount (.put fun _ => 0)
        (putAt CountObj.addr c.looseCount (.put fun _ => 0) (d.next (c.next s)).counts) =
      putAt CountObj.addr d.looseCount (.put fun _ => 0)
        (putAt CountObj.addr c.looseCount (.put fun _ => 0) (c.next (d.next s)).counts) := by
  simp only [Course.next_counts_eq]
  refine aside_interchange (Course.putCount_aside c s (d.next s)) (Course.putCount_aside d (c.next s) s) ?_ ?_ ?_ ?_ s.counts
  · exact putCount_commute _ _ fun a ha hb => h.counts a (c.countDst_of_looseCount ha) (d.countDst_of_looseCount hb)
  · exact putCount_commute _ _ fun a ha => h.counts a (c.countDst_of_looseCount ha)
  · exact (putCount_commute _ _ fun a ha hb => h.counts a ha (d.countDst_of_looseCount hb)).symm
  · exact putCount_commute _ _ h.counts

/-- So do the 64-bit objects, since neither course changes the bytes the other reads. -/
theorem Course.Apart.values_comm :
    putAt ValueObj.addr d.looseValue (.put fun _ => 0#64)
        (putAt ValueObj.addr c.looseValue (.put fun _ => 0#64) (d.next (c.next s)).values) =
      putAt ValueObj.addr d.looseValue (.put fun _ => 0#64)
        (putAt ValueObj.addr c.looseValue (.put fun _ => 0#64) (c.next (d.next s)).values) := by
  simp only [Course.next_values_eq]
  refine aside_interchange (Course.putValue_aside fun a ha => ?_) (Course.putValue_aside fun a ha => ?_) ?_ ?_ ?_ ?_ s.values
  · exact Course.next_mem_get_of_not_stores (h.readsLeft a ha)
  · exact (Course.next_mem_get_of_not_stores (h.readsRight a ha)).symm
  · exact putValue_commute _ _ fun a ha hb => h.values a (c.valueDst_of_looseValue ha) (d.valueDst_of_looseValue hb)
  · exact putValue_commute _ _ fun a ha => h.values a (c.valueDst_of_looseValue ha)
  · exact (putValue_commute _ _ fun a ha hb => h.values a ha (d.valueDst_of_looseValue hb)).symm
  · exact putValue_commute _ _ h.values

end

/-- Settles O43: each course still fits after the other, and storage agrees field by field. -/
theorem disjointTransactionsCommute : Obligations.DisjointTransactionsCommute := by
  intro i j s t₁ t₂ hdisj hi hj
  obtain ⟨c, hc, hcs, rfl⟩ := exec_next hi
  obtain ⟨d, hd, hds, rfl⟩ := exec_next hj
  have hapart := Course.apart_of_disjointStorage hdisj hc hd hcs hds
  refine ⟨d.next (c.next s), c.next (d.next s), exec_of_fits hd (hapart.fits_right hds),
    exec_of_fits hc (hapart.fits_left hcs), by simp, by simp, ?mem, ?counts, ?values, ?bufs⟩
  case mem =>
    intro a
    simpa using hapart.next_mem_comm a
  case counts =>
    simp only [Course.next_status, hd.setAside_counts, hc.setAside_counts]
    exact hapart.counts_comm
  case values =>
    simp only [Course.next_status, hd.setAside_values, hc.setAside_values]
    exact hapart.values_comm
  case bufs => simp

end Sys2Proof.Machine
end

section
/-!
PROOFS. Where a step may write (20_memory.md section 2). Every action of the host that is answered writes at most MAXLEN bytes
behind one destination and the content of one count object and of one 64-bit object, and moves nothing (`WritesOnly`): an
operation and a reset in flight at the operation's references, a store of the host at its own address.
-/

namespace Sys2Proof.Machine

/-- The bytes of `t` are those of `s` but for at most MAXLEN behind `dst`, inside its buffer. -/
def WritesBytes (dst : Ref) (s t : State) : Prop :=
  ∃ base bs, t.mem = s.mem.write base bs ∧ bs.length ≤ s.room base ∧ bs.length ≤ maxLen ∧ (bs = [] ∨ dst = some base)

/-- `t` is `s` but for bytes behind `dst` and what the objects behind `count` and `value` hold. -/
structure WritesOnly (dst count value : Ref) (s t : State) : Prop where
  mem : WritesBytes dst s t
  counts : ∀ a, count ≠ some a → t.countAt a = s.countAt a
  values : ∀ a, value ≠ some a → t.valueAt a = s.valueAt a
  countAddrs : t.counts.map CountObj.addr = s.counts.map CountObj.addr
  valueAddrs : t.values.map ValueObj.addr = s.values.map ValueObj.addr
  bufs : t.bufs = s.bufs

section
variable {s t : State}

theorem WritesOnly.mem_get {dst count value : Ref} (h : WritesOnly dst count value s t) {a : Nat}
    (ha : ∀ d, dst = some d → a < d ∨ d + maxLen ≤ a) : t.mem.get a = s.mem.get a := by
  obtain ⟨base, bs, hmem, -, hlen, rfl | hdst⟩ := h.mem
  · rw [hmem]
    rfl
  · have hout := ha base hdst
    rw [hmem, Memory.get_write, if_neg (by omega)]

/-- An update of a count and one of a value, each behind its reference or behind none, and a run of bytes. -/
theorem WritesOnly.of_updates {dst count value r q : Ref} {f : Nat → Nat} {g : Word → Word}
    (hmem : WritesBytes dst s t) (hr : r = none ∨ r = count) (hcounts : t.counts = (s.updateCount r f).counts)
    (hq : q = none ∨ q = value) (hvalues : t.values = (s.updateValue q g).values) (hbufs : t.bufs = s.bufs) :
    WritesOnly dst count value s t := by
  refine ⟨hmem, fun a ha => ?_, fun a ha => ?_, ?_, ?_, hbufs⟩
  · have hra : r ≠ some a := by rcases hr with rfl | rfl <;> simp [ha]
    rw [State.countAt_congr hcounts, State.countAt_updateCount, if_neg hra]
  · have hqa : q ≠ some a := by rcases hq with rfl | rfl <;> simp [ha]
    rw [State.valueAt_congr hvalues, State.valueAt_updateValue, if_neg hqa]
  · rw [hcounts, State.updateCount_addrs]
  · rw [hvalues, State.updateValue_addrs]

theorem WritesBytes.of_mem_eq {dst : Ref} (h : t.mem = s.mem) : WritesBytes dst s t :=
  ⟨0, [], h, Nat.zero_le _, Nat.zero_le _, .inl rfl⟩

/-! ### Operations -/

theorem exec_writesOnly {i : Instr} (h : exec i s = .next t) :
    WritesOnly (dstRef i) (countRef i) (valueRef i) s t := by
  obtain ⟨c, hc, hfits, rfl⟩ := exec_next h
  exact .of_updates ⟨c.storeBase, c.stores, c.next_mem s, hfits.stores_le_room, c.length_stores_le, hc.dst_eq⟩
    hc.countDst_eq (c.next_counts s) hc.valueDst_eq (c.next_values s) (c.next_bufs s)

/-- A well-formed operation's destination leaves room for MAXLEN bytes below the top of the address space (R23). -/
theorem dstRef_add_maxLen_le {aw d : Nat} {i : Instr} (hwf : WellFormed aw i = true) (hd : dstRef i = some d) :
    d + maxLen ≤ 2 ^ aw := by
  have hfits : bufferFits aw (some d) = true := by
    rw [← hd]
    cases i with
    | encu x dst lenDst | encs x dst lenDst => exact (Bool.and_eq_true_iff.1 hwf).1
    | decu | decs => rfl
  have htop : d + (maxLen - 1) < 2 ^ aw := of_decide_eq_true hfits
  have h10 : maxLen = 10 := rfl
  omega

/-- Settles O39: the bytes an operation may store end below the top. -/
theorem storesStayInAddressSpace : Obligations.StoresStayInAddressSpace := by
  intro aw i s t hwf h a ha
  exact (exec_writesOnly h).mem_get fun d hd => .inr (le_trans (dstRef_add_maxLen_le hwf hd) ha)

/-! ### A reset in flight -/

/-- What is loosened behind a destination is a run of bytes written there. -/
theorem exists_loosenBytes_eq_write (draw : Nat) (new : Memory) (k a : Nat) (s : State) :
    ∃ bs, bs.length = k ∧ loosenBytes draw new k a s = { s with mem := s.mem.write a bs } := by
  induction k generalizing a s with
  | zero => exact ⟨[], rfl, rfl⟩
  | succ k ih =>
    obtain ⟨bs, hlen, heq⟩ := ih (a + 1) (s.setByte a (Config.freeByte draw a (s.mem.get a) (new.get a)))
    exact ⟨_ :: bs, by rw [List.length_cons, hlen], heq⟩

theorem exists_loosenDst_eq (draw : Nat) (new : State) (r : Ref) (s : State) :
    ∃ m, loosenDst draw new r s = { s with mem := m } ∧ WritesBytes r s { s with mem := m } := by
  cases r with
  | none => exact ⟨s.mem, rfl, .of_mem_eq rfl⟩
  | some d =>
    obtain ⟨bs, hlen, heq⟩ := exists_loosenBytes_eq_write draw new.mem (min (s.room d) maxLen) d s
    exact ⟨_, heq, d, bs, rfl, hlen ▸ Nat.min_le_left _ _, hlen ▸ Nat.min_le_right _ _, .inr rfl⟩

theorem abandoned_writesOnly (i : Instr) (new s : State) :
    WritesOnly (dstRef i) (countRef i) (valueRef i) s (abandoned i new s) := by
  obtain ⟨m, hdst, hbytes⟩ := exists_loosenDst_eq new.draws new (dstRef i) s
  simp only [abandoned, loosen_eq, hdst, loosenCount, loosenValue, State.updateCount_eq, State.updateValue_eq]
  exact .of_updates hbytes (.inr rfl) (by rw [State.updateCount_eq]; rfl) (.inr rfl)
    (by rw [State.updateValue_eq]; rfl) rfl

theorem abandoned_inputs (i : Instr) (new s : State) : (abandoned i new s).inputs = s.inputs := by
  obtain ⟨m, hdst, -⟩ := exists_loosenDst_eq new.draws new (dstRef i) s
  simp [abandoned, loosen_eq, hdst, loosenCount, loosenValue]

/-- Settles O48: what a reset in flight leaves, and where it may have written. -/
theorem abandonedTransactionReportsNothing : Obligations.AbandonedTransactionReportsNothing := by
  intro s u r rest hinputs h
  have hwrites := abandoned_writesOnly (decode r) u { s with inputs := rest }
  refine ⟨abandoned (decode r) u { s with inputs := rest }, ?_, rfl, abandoned_inputs .., hwrites.bufs,
    fun a ha => hwrites.mem_get ha, hwrites.counts, hwrites.values, hwrites.countAddrs, hwrites.valueAddrs⟩
  rw [step_of_cons hinputs, takeInput, abandon_eq, h, andThen_next]

/-! ### Stores of the host -/

theorem hostStoreCount_of_object {a : Nat} {o : CountObj} (h : s.countAt a = some o) (k : Nat) :
    hostStoreCount a k s = .next (s.storeCount (some a) k) := by simp only [hostStoreCount, h]

theorem hostStoreCount_of_none {a : Nat} (h : s.countAt a = none) (k : Nat) :
    hostStoreCount a k s = .refused .hostStoreOutside := by simp only [hostStoreCount, h]

theorem hostStoreValue_of_object {a : Nat} {o : ValueObj} (h : s.valueAt a = some o) (x : Word) :
    hostStoreValue a x s = .next (s.storeValue (some a) x) := by simp only [hostStoreValue, h]

theorem hostStoreValue_of_none {a : Nat} (h : s.valueAt a = none) (x : Word) :
    hostStoreValue a x s = .refused .hostStoreOutside := by simp only [hostStoreValue, h]

theorem countVal_storeCount {a : Nat} {o : CountObj} (h : s.countAt a = some o) (k c : Nat) :
    (s.storeCount (some a) k).countVal c = if c = a then some k else s.countVal c := by
  rw [State.countVal, State.storeCount, State.countAt_updateCount]
  by_cases hc : c = a
  · subst hc
    simp [h]
  · simp [hc, Ne.symm hc, State.countVal]

theorem valueVal_storeValue {a : Nat} {o : ValueObj} (h : s.valueAt a = some o) (x : Word) (c : Nat) :
    (s.storeValue (some a) x).valueVal c = if c = a then some x else s.valueVal c := by
  rw [State.valueVal, State.storeValue, State.valueAt_updateValue]
  by_cases hc : c = a
  · subst hc
    simp [h]
  · simp [hc, Ne.symm hc, State.valueVal]

/-- Settles O49: each store is answered, and read back. -/
theorem hostStoresAreSeen : Obligations.HostStoresAreSeen := by
  refine ⟨?byte, ?count, ?value⟩
  case byte =>
    intro s a b rest hinputs hroom hplain
    have hstore := hostStoreByte_of_plain (s := { s with inputs := rest }) ⟨hroom, hplain⟩ b
    exact ⟨_, (step_of_cons hinputs).trans hstore, rfl, fun c => Memory.get_set s.mem a c b⟩
  case count =>
    intro s a k o rest hinputs ho
    have hstore := hostStoreCount_of_object (s := { s with inputs := rest }) ho k
    exact ⟨_, (step_of_cons hinputs).trans hstore, rfl, countVal_storeCount ho k⟩
  case value =>
    intro s a x o rest hinputs ho
    have hstore := hostStoreValue_of_object (s := { s with inputs := rest }) ho x
    exact ⟨_, (step_of_cons hinputs).trans hstore, rfl, valueVal_storeValue ho x⟩

/-! ### Every action of the host -/

theorem hostStoreByte_next {a : Nat} {b : Byte} (h : hostStoreByte a b s = .next t) : 0 < s.room a ∧ t = s.setByte a b := by
  by_cases hp : 0 < s.room a ∧ s.isDevice a = false
  · rw [hostStoreByte_of_plain hp] at h
    cases h
    exact ⟨hp.1, rfl⟩
  · rw [hostStoreByte_of_outside hp] at h
    cases h

theorem hostStoreCount_next {a k : Nat} (h : hostStoreCount a k s = .next t) : t = s.storeCount (some a) k := by
  cases ho : s.countAt a with
  | none =>
    rw [hostStoreCount_of_none ho] at h
    cases h
  | some o =>
    rw [hostStoreCount_of_object ho] at h
    cases h
    rfl

theorem hostStoreValue_next {a : Nat} {x : Word} (h : hostStoreValue a x s = .next t) :
    t = s.storeValue (some a) x := by
  cases ho : s.valueAt a with
  | none =>
    rw [hostStoreValue_of_none ho] at h
    cases h
  | some o =>
    rw [hostStoreValue_of_object ho] at h
    cases h
    rfl

theorem abandon_next {i : Instr} (h : abandon i s = .next t) : ∃ u, exec i s = .next u ∧ t = abandoned i u s := by
  rw [abandon_eq, andThen_eq_next] at h
  obtain ⟨u, hu, ht⟩ := h
  cases ht
  exact ⟨u, hu, rfl⟩

theorem quiet_writesOnly (s : State) : WritesOnly none none none s s.quiet :=
  .of_updates (.of_mem_eq rfl) (.inl rfl) (f := id) rfl (.inl rfl) (g := id) rfl rfl

theorem setByte_writesOnly {a : Nat} (h : 0 < s.room a) (b : Byte) : WritesOnly (some a) none none s (s.setByte a b) :=
  .of_updates ⟨a, [b], rfl, h, Nat.le_of_ble_eq_true rfl, .inr rfl⟩ (.inl rfl) (f := id) rfl (.inl rfl) (g := id) rfl rfl

theorem storeCount_writesOnly (s : State) (a k : Nat) : WritesOnly none (some a) none s (s.storeCount (some a) k) :=
  .of_updates (.of_mem_eq rfl) (.inr rfl) rfl (.inl rfl) (g := id) rfl rfl

theorem storeValue_writesOnly (s : State) (a : Nat) (x : Word) :
    WritesOnly none none (some a) s (s.storeValue (some a) x) :=
  .of_updates (.of_mem_eq rfl) (.inl rfl) (f := id) rfl (.inr rfl) rfl rfl

/-- An answered action of the host writes behind one reference of each kind, if at all. -/
theorem takeInput_writesOnly {x : Input} (h : takeInput x s = .next t) :
    ∃ dst count value, WritesOnly dst count value s t := by
  cases x with
  | request r => exact ⟨_, _, _, exec_writesOnly h⟩
  | reset =>
    cases h
    exact ⟨_, _, _, quiet_writesOnly s⟩
  | abandon r =>
    obtain ⟨u, -, rfl⟩ := abandon_next h
    exact ⟨_, _, _, abandoned_writesOnly (decode r) u s⟩
  | hostByte a b =>
    obtain ⟨hroom, rfl⟩ := hostStoreByte_next h
    exact ⟨_, _, _, setByte_writesOnly hroom b⟩
  | hostCount a k =>
    obtain rfl := hostStoreCount_next h
    exact ⟨_, _, _, storeCount_writesOnly s a k⟩
  | hostValue a x =>
    obtain rfl := hostStoreValue_next h
    exact ⟨_, _, _, storeValue_writesOnly s a x⟩

end

end Sys2Proof.Machine
end

section
/-!
PROOFS. What every step keeps: it raises no fault (60_exceptions.md R97), and it keeps the invariant. The invariant has two
halves that do not meet: storage stays in order wherever a step may write (`WritesOnly`), and the working registers keep their
ranges because every operation leaves them in their closed form and a reset clears them.
-/

namespace Sys2Proof.Machine

/-! ### No fault -/

theorem encodeUnsigned_ne_fault (x : Word) (dst lenDst : Ref) (s : State) (e : Fault) :
    encodeUnsigned x dst lenDst s ≠ .fault e := by
  cases dst with
  | none => simp [encodeUnsigned_absent]
  | some d =>
    rw [encodeUnsigned_eq]
    cases s.encodeContract d lenDst with
    | some r => simp
    | none => by_cases hroom : encLen x ≤ s.room d <;> simp [hroom]

theorem decodeWith_ne_fault (post : Word → Word) (src valDst consDst : Ref) (s : State) (e : Fault) :
    decodeWith post src valDst consDst s ≠ .fault e := by
  match src, valDst with
  | none, _ => simp [decodeWith_absent]
  | some a, none => simp [decodeWith_absent]
  | some a, some vd =>
    rcases decodeWith_cases post s a vd consDst with ⟨r, -, h⟩ | ⟨-, ⟨k, -, h⟩ | ⟨-, h⟩ | ⟨-, h⟩⟩ <;> simp [h]

theorem exec_ne_fault (i : Instr) (s : State) (e : Fault) : exec i s ≠ .fault e := by
  cases i with
  | encu x dst lenDst => exact encodeUnsigned_ne_fault x dst lenDst s e
  | decu src valDst consDst => exact decodeWith_ne_fault (fun x => x) src valDst consDst s e
  | encs x dst lenDst => exact encodeUnsigned_ne_fault (zzenc x) dst lenDst s e
  | decs src valDst consDst => exact decodeWith_ne_fault zzdec src valDst consDst s e

theorem abandon_ne_fault (i : Instr) (s : State) (e : Fault) : abandon i s ≠ .fault e := by
  rw [abandon_eq]
  cases h : exec i s with
  | next t => simp
  | fault e' => exact absurd h (exec_ne_fault i s e')
  | refused r => simp

theorem takeInput_ne_fault (x : Input) (s : State) (e : Fault) : takeInput x s ≠ .fault e := by
  cases x with
  | request r => exact exec_ne_fault (decode r) s e
  | reset => simp [takeInput]
  | abandon r => exact abandon_ne_fault (decode r) s e
  | hostByte a b =>
    by_cases h : 0 < s.room a ∧ s.isDevice a = false
    · simp [takeInput, hostStoreByte_of_plain h]
    · simp [takeInput, hostStoreByte_of_outside h]
  | hostCount a k =>
    cases h : s.countAt a with
    | none => simp [takeInput, hostStoreCount_of_none h]
    | some o => simp [takeInput, hostStoreCount_of_object h]
  | hostValue a x =>
    cases h : s.valueAt a with
    | none => simp [takeInput, hostStoreValue_of_none h]
    | some o => simp [takeInput, hostStoreValue_of_object h]

/-- Settles O38: an idle step answers, and no action of the host raises a fault. -/
theorem stepNeverFaults : Obligations.StepNeverFaults := by
  intro s e
  cases h : s.inputs with
  | nil => simp [step_of_nil h]
  | cons x rest =>
    rw [step_of_cons h]
    exact takeInput_ne_fault x _ e

/-! ### Storage stays in order -/

/-- The clauses of the invariant about the host's storage. -/
structure State.StorageInv (s : State) : Prop where
  memCanonical : s.mem.wf = true
  bytesInBuffers : ∀ c ∈ s.mem, ∃ e ∈ s.bufs, e.holds c.1 = true
  countsRising : (s.counts.map CountObj.addr).Pairwise (· < ·)
  valuesRising : (s.values.map ValueObj.addr).Pairwise (· < ·)

/-- The clauses of the invariant about the working registers. -/
structure State.RegisterInv (s : State) : Prop where
  offsetOfIndex : s.shift.toNat = groupBits * s.i.toNat
  indexBounded : s.i.toNat ≤ maxLen
  emittedBounded : s.n.toNat ≤ maxLen
  remainingSmall : s.v ≤ 0x7F#64

theorem State.inv_iff (s : State) : s.Inv ↔ s.StorageInv ∧ s.RegisterInv :=
  ⟨fun ⟨h1, h2, h3, h4, h5, h6, h7, h8⟩ => ⟨⟨h1, h2, h3, h4⟩, ⟨h5, h6, h7, h8⟩⟩,
    fun ⟨⟨h1, h2, h3, h4⟩, ⟨h5, h6, h7, h8⟩⟩ => ⟨h1, h2, h3, h4, h5, h6, h7, h8⟩⟩

theorem State.StorageInv.of_writesOnly {dst count value : Ref} {s t : State} (h : s.StorageInv)
    (hw : WritesOnly dst count value s t) : t.StorageInv := by
  obtain ⟨base, bs, hmem, hroom, -, -⟩ := hw.mem
  refine ⟨?_, fun c hc => ?_, hw.countAddrs ▸ h.countsRising, hw.valueAddrs ▸ h.valuesRising⟩
  · rw [hmem]
    exact Memory.wf_write base bs h.memCanonical
  · rw [hmem] at hc
    rw [hw.bufs]
    rcases Memory.mem_write hc with ⟨hle, hlt⟩ | hold
    · obtain ⟨e, he, hholds⟩ := State.exists_buffer_of_lt_room (s := s) (a := base) (k := c.1 - base) (by omega)
      exact ⟨e, he, by rwa [Nat.add_sub_cancel' hle] at hholds⟩
    · exact h.bytesInBuffers c hold

/-! ### The working registers keep their ranges -/

section
variable {s t : State}

/-- What the loop leaves of a value is its last group. -/
theorem shiftOut_all_le (x : Word) : x >>> (7 * (encLen x - 1)) ≤ 0x7F#64 := by
  have hpos := encLen_pos x
  have hlt := (encLen_le_iff x hpos).1 le_rfl
  have hpow : 2 ^ (7 * encLen x) = 128 * 2 ^ (7 * (encLen x - 1)) := by
    rw [show 7 * encLen x = 7 + 7 * (encLen x - 1) by omega, Nat.pow_add]
  have hdiv : x.toNat / 2 ^ (7 * (encLen x - 1)) < 128 := (Nat.div_lt_iff_lt_mul (by positivity)).2 (hpow ▸ hlt)
  rw [BitVec.le_def, BitVec.toNat_ushiftRight, Nat.shiftRight_eq_div_pow]
  exact Nat.lt_succ_iff.1 hdiv

theorem State.RegisterInv.of_encodeRegisters {x : Word} (h : s.RegisterInv) (hr : EncodeRegisters x s t) :
    t.RegisterInv := by
  refine ⟨?_, hr.index ▸ h.indexBounded, hr.emitted ▸ encLen_le_maxLen x, hr.remaining ▸ shiftOut_all_le x⟩
  rw [hr.shift, hr.index]
  exact h.offsetOfIndex

theorem State.RegisterInv.of_decodeRegisters {src m : Nat} (h : s.RegisterInv) (hm : m ≤ maxLen)
    (hr : DecodeRegisters src m s t) : t.RegisterInv := by
  refine ⟨?_, hr.index ▸ hm, hr.emitted ▸ h.emittedBounded, hr.remaining ▸ h.remainingSmall⟩
  rw [hr.shift, hr.index]
  rfl

/-- Registers that stay keep their ranges. -/
theorem State.RegisterInv.of_same (h : s.RegisterInv) (hshift : t.shift = s.shift) (hi : t.i = s.i) (hn : t.n = s.n)
    (hv : t.v = s.v) : t.RegisterInv := by
  refine ⟨?_, hi ▸ h.indexBounded, hn ▸ h.emittedBounded, hv ▸ h.remainingSmall⟩
  rw [hshift, hi]
  exact h.offsetOfIndex

theorem registerInv_reset : State.reset.RegisterInv := ⟨by decide, by decide, by decide, by decide⟩

theorem exec_registerInv {i : Instr} (hs : s.RegisterInv) (h : exec i s = .next t) : t.RegisterInv := by
  obtain ⟨c, -, hfits, rfl⟩ := exec_next h
  cases c with
  | turnedAway => exact hs.of_same rfl rfl rfl rfl
  | encoded x dst lenDst => exact hs.of_encodeRegisters (encoded_registers x dst lenDst s)
  | decoded post src valDst consDst k =>
    exact hs.of_decodeRegisters hfits.2.inCap (decoded_registers post src valDst consDst hfits.2.inCap s)
  | incompleted src valDst consDst => exact hs.of_decodeRegisters le_rfl (incompleted_registers src valDst consDst s)

theorem takeInput_registerInv {x : Input} (hs : s.RegisterInv) (h : takeInput x s = .next t) : t.RegisterInv := by
  cases x with
  | request r => exact exec_registerInv hs h
  | reset =>
    cases h
    exact registerInv_reset.of_same rfl rfl rfl rfl
  | abandon r =>
    obtain ⟨u, -, rfl⟩ := abandon_next h
    exact registerInv_reset.of_same rfl rfl rfl rfl
  | hostByte a b =>
    obtain ⟨-, rfl⟩ := hostStoreByte_next h
    exact hs.of_same rfl rfl rfl rfl
  | hostCount a k =>
    obtain rfl := hostStoreCount_next h
    exact hs.of_same rfl rfl rfl rfl
  | hostValue a x =>
    obtain rfl := hostStoreValue_next h
    exact hs.of_same rfl rfl rfl rfl

theorem takeInput_inv {x : Input} (hs : s.Inv) (h : takeInput x s = .next t) : t.Inv := by
  obtain ⟨hstorage, hregs⟩ := s.inv_iff.1 hs
  obtain ⟨dst, count, value, hwrites⟩ := takeInput_writesOnly h
  exact t.inv_iff.2 ⟨hstorage.of_writesOnly hwrites, takeInput_registerInv hregs h⟩

end

/-- Settles O44: an idle step changes nothing; the list of actions is no part of the invariant. -/
theorem everyStepKeepsInvariant : Obligations.EveryStepKeepsInvariant := by
  intro s t hs h
  cases hinputs : s.inputs with
  | nil =>
    rw [step_of_nil hinputs] at h
    cases h
    exact hs
  | cons x rest =>
    rw [step_of_cons hinputs] at h
    exact takeInput_inv (s := { s with inputs := rest }) { hs with } h

/-- Settles O45: no storage, and registers that are 0. -/
theorem resetMeetsInvariant : Obligations.ResetMeetsInvariant :=
  State.reset.inv_iff.2 ⟨⟨rfl, by simp [State.reset], .nil, .nil⟩, registerInv_reset⟩

end Sys2Proof.Machine
end
